-- ==== Sys2Proof/Word.lean ====
section
/-! DEFINITION. The sequence types the block computes with, and the one piece of plain arithmetic that
fixes register widths (spec/00_scope.md section 5, spec/20_memory.md rule R30). -/

namespace Sys2Proof

/-- A bit string: the element at list index `p - 1` is the bit at Position `p`, so the head of the list is
position 1, the rightmost character of the text form (20_memory.md R30, R31). -/
abbrev BitString := List Bool

/-- The text form of a bit string, leftmost character first (20_memory.md R32, 30_encoding.md R51). -/
abbrev Text := List Char

/-- `bitlength x`: the number of binary digits of `x`, 0 for 0 (00_scope.md section 5.1). -/
def bitlength (x : Nat) : Nat := if x = 0 then 0 else Nat.log2 x + 1

end Sys2Proof
end

