-- ==== Sys2Proof/Config.lean ====
section
/-! DEFINITION. The block's one build parameter `W` and the widths derived from it (00_scope.md R9).
`W` itself is OPEN in the spec (decision D2): State carries it as a constant field, and `Config.W` is only the
instance that State.reset and the opcode table's example words use. -/

namespace Sys2Proof

/-- The instance of State.reset and of `decodeTableWord`: `W = 16`, the instance of all port-level examples
(95_test_vectors.md section 1; opcode_table.json "encoding_example_W16"). DESIGN CHOICE, notes/assumptions/2.md. -/
def Config.W : Nat := 16

/-- `LW = bitlength(W)`: width of every length, `r` and error-position field (00_scope.md R9). -/
abbrev LW (W : Nat) : Nat := bitlength W

/-- `RMAX = bitlength(W)`: the number of trace entries at port level (00_scope.md R9). -/
abbrev RMAX (W : Nat) : Nat := bitlength W

/-- The width of the request word `{req_op, req_len, req_r, req_bits}`: `1 + 2*LW + W` bits (30_encoding.md R54). -/
abbrev reqWidth (W : Nat) : Nat := 1 + (LW W + (LW W + W))

end Sys2Proof
end

