-- ==== Sys2Proof/Syntax.lean ====
section
/-! DEFINITION. The operation set of the block, one constructor per row of spec/opcode_table.json
(30_encoding.md R50). -/

namespace Sys2Proof

/-- The seven operations. The two commands carry the fields of the request port as the unsigned numbers on its
buses (30_encoding.md R54); the five component operations have no operand fields: they work on the registers and
are selected by the phase register (30_encoding.md R59). -/
inductive Instr where
  /-- `ENCODE`, `req_op = 0` (46_encode_command.md R150). `r` is on the port and ignored. -/
  | encode (len r bits : Nat)
  /-- `DECODE`, `req_op = 1` (47_decode_command.md R160). -/
  | decode (len r bits : Nat)
  /-- `CALCR`, the Redundant-Bit Counter (40_redundant_bit_counter.md R80). -/
  | calcr
  /-- `INTERLEAVE`, the Placeholder Interleaver (41_interleaver.md R90). -/
  | interleave
  /-- `PARITY`, the Parity Computer (42_parity_computer.md R100). -/
  | parity
  /-- `SYNDROME`, the Error Detector / Syndrome Decoder (43_syndrome_decoder.md R110). -/
  | syndrome
  /-- `CORRECT`, the Corrector (44_corrector.md R120). -/
  | correct
  deriving DecidableEq, Repr

end Sys2Proof
end

