-- ==== Sys2Proof/WellFormed.lean ====
section
/-! DEFINITION. Which instructions exist on an instance of width `W`: every operand fits its port
(30_encoding.md R54). Values the block itself rejects (a length of 0 or above `W`, stray bits, a wrong `r`) are
well formed here: they are legal requests that end in a failure (30_encoding.md R63). -/

namespace Sys2Proof

/-- The three request fields fit their buses: `req_len` and `req_r` are `LW` bits wide, `req_bits` is `W`. -/
def requestFits (W len r bits : Nat) : Bool :=
  decide (len < 2 ^ LW W) && decide (r < 2 ^ LW W) && decide (bits < 2 ^ W)

/-- Well-formedness of an instruction on an instance of width `W`. -/
def Instr.wf (W : Nat) : Instr → Bool
  | .encode len r bits => requestFits W len r bits
  | .decode len r bits => requestFits W len r bits
  | .calcr => true
  | .interleave => true
  | .parity => true
  | .syndrome => true
  | .correct => true

end Sys2Proof
end

