-- ==== Sys2Proof/Decode.lean ====
section
/-! DEFINITION. Decoding and encoding of the two formats of spec/opcode_table.json: the request word REQ of the
commands (30_encoding.md R54, R55) and the phase code of the component operations (30_encoding.md R59). -/

namespace Sys2Proof

/-- What selects an operation: a request word on the request port, or the code in the phase register. -/
inductive InstrWord (W : Nat) where
  | req (w : BitVec (reqWidth W))
  | phase (code : BitVec 4)
  deriving DecidableEq, Repr

/-- Why a phase code selects no operation (30_encoding.md R59). A request word is never rejected (R55, R63). -/
inductive Reject where
  /-- Codes 0, 4, 6, 8, 9, 10: `Idle` and the terminal phases, whose column "operation performed" is no component. -/
  | noComponentOperation (code : BitVec 4)
  /-- Codes 11 to 15, "never entered". -/
  | neverEntered (code : BitVec 4)
  deriving DecidableEq, Repr

/-- `req_op`, the most significant bit of REQ (30_encoding.md R54). -/
def reqOpField {W : Nat} (w : BitVec (reqWidth W)) : BitVec 1 := w.extractLsb' (LW W + (LW W + W)) 1

/-- `req_len`, the field below `req_op`. -/
def reqLenField {W : Nat} (w : BitVec (reqWidth W)) : BitVec (LW W) := w.extractLsb' (LW W + W) (LW W)

/-- `req_r`, the field below `req_len`. -/
def reqRField {W : Nat} (w : BitVec (reqWidth W)) : BitVec (LW W) := w.extractLsb' W (LW W)

/-- `req_bits`, the `W` least significant bits of REQ. -/
def reqBitsField {W : Nat} (w : BitVec (reqWidth W)) : BitVec W := w.extractLsb' 0 W

/-- The command of a request word: `req_op = 0` selects ENCODE, `req_op = 1` DECODE; no value is illegal (R55). -/
def decodeReq {W : Nat} (w : BitVec (reqWidth W)) : Instr :=
  if reqOpField w = 0#1 then
    .encode (reqLenField w).toNat (reqRField w).toNat (reqBitsField w).toNat
  else
    .decode (reqLenField w).toNat (reqRField w).toNat (reqBitsField w).toNat

/-- The component operation of a phase code (30_encoding.md R59). -/
def decodePhase (code : BitVec 4) : Except Reject Instr :=
  if code = 1#4 then .ok .calcr
  else if code = 2#4 then .ok .interleave
  else if code = 3#4 then .ok .parity
  else if code = 5#4 then .ok .syndrome
  else if code = 7#4 then .ok .correct
  else if code ≤ 10#4 then .error (.noComponentOperation code)
  else .error (.neverEntered code)

/-- The decoder, total on both formats. -/
def decodeWord {W : Nat} : InstrWord W → Except Reject Instr
  | .req w => .ok (decodeReq w)
  | .phase code => decodePhase code

/-- `REQ = {req_op, req_len, req_r, req_bits}` (30_encoding.md R54). -/
def packReq {W : Nat} (op : BitVec 1) (len r : BitVec (LW W)) (bits : BitVec W) : BitVec (reqWidth W) :=
  op ++ (len ++ (r ++ bits))

/-- The encoder: the word of a well-formed instruction on an instance of width `W`. -/
def encodeWord (W : Nat) : Instr → InstrWord W
  | .encode len r bits => .req (packReq 0#1 (BitVec.ofNat _ len) (BitVec.ofNat _ r) (BitVec.ofNat _ bits))
  | .decode len r bits => .req (packReq 1#1 (BitVec.ofNat _ len) (BitVec.ofNat _ r) (BitVec.ofNat _ bits))
  | .calcr => .phase 1#4
  | .interleave => .phase 2#4
  | .parity => .phase 3#4
  | .syndrome => .phase 5#4
  | .correct => .phase 7#4

/-- A word numbered as spec/opcode_table.json numbers it. The table gives a command row ONE bit, `req_op`
("match_mask_apply_to"), and a component row the four bits of `phase`; the whole REQ word is the row's example for an
instance. So: up to a byte, the values 0 and 1 are `req_op` with every other request bit 0; a nibble, or a byte value
above 1, is a phase code; a longer word is the whole REQ (notes/assumptions/10.md). -/
def tableWord (W nbits w : Nat) : Option (InstrWord W) :=
  if nbits = 4 ∨ (nbits ≤ 8 ∧ 2 ≤ w) then
    if w < 16 then some (.phase (BitVec.ofNat 4 w)) else none
  else if nbits ≤ 8 then
    some (.req (packReq (BitVec.ofNat 1 w) 0 0 0))
  else if w < 2 ^ reqWidth W then some (.req (BitVec.ofNat _ w)) else none

/-- The instruction the decoder reads from a word of the opcode table, on the instance of the table's examples. -/
def decodeTableWord (nbits w : Nat) : Option Instr :=
  match tableWord Config.W nbits w with
  | none => none
  | some word =>
    match decodeWord word with
    | .ok i => some i
    | .error _ => none

end Sys2Proof
end

