-- ==== Sys2Proof/Machine/State.lean ====
section
/-! DEFINITION. The state of the block: the registers of spec/10_state.md R14 to R18, the build parameter `W` and
the input pins the caller drives (30_encoding.md R54, R56), all plain data. -/

namespace Sys2Proof.Machine

/-- The phase register's values (10_state.md R14, 30_encoding.md R59); codes 11 to 15 are never entered and are not
represented (93_implementation_defined.md U5). -/
inductive Phase where
  | idle
  | countParityBits
  | interleave
  | computeParity
  | encoded
  | computeSyndrome
  | noError
  | singleBitError
  | corrected
  | uncorrectableError
  | invalidInput
  deriving DecidableEq, Repr

/-- The values of `st_status` that are ever produced (30_encoding.md R57). -/
inductive Status where
  | ok
  | invalidInput
  | uncorrectableError
  deriving DecidableEq, Repr

/-- The causes of `InvalidInput` (60_exceptions.md R172). "No cause", code 0 of `st_cause`, is `none` of
`Option Cause`. -/
inductive Cause where
  | empty
  | malformed
  | rMismatch
  | badPosition
  | capacity
  deriving DecidableEq, Repr

/-- One sample of the input pins, taken at one step (30_encoding.md R54, R56). -/
structure PortIn (W : Nat) where
  rst : Bool
  reqValid : Bool
  reqOp : BitVec 1
  reqLen : BitVec (LW W)
  reqR : BitVec (LW W)
  reqBits : BitVec W
  rspAck : Bool
  deriving DecidableEq, Repr

/-- Pins on which the caller drives nothing: every input 0. -/
def PortIn.quiet (W : Nat) : PortIn W where
  rst := false
  reqValid := false
  reqOp := 0
  reqLen := 0
  reqR := 0
  reqBits := 0
  rspAck := false

/-- The registers of an instance of width `W` (10_state.md R14 to R18). -/
structure Regs (W : Nat) where
  /-- The current state of the per-invocation state machine (R14). -/
  phase : Phase
  /-- Request latches (R15). -/
  qOp : BitVec 1
  qLen : BitVec (LW W)
  qR : BitVec (LW W)
  qBits : BitVec W
  /-- Working registers (R16). -/
  wM : BitVec (LW W)
  wR : BitVec (LW W)
  wN : BitVec (LW W)
  wSeq : BitVec W
  wPos : BitVec (LW W)
  wOut : BitVec W
  /-- Trace registers, `RMAX` entries each (R17). -/
  tCov : Vector (BitVec W) (RMAX W)
  tObs : Vector (BitVec W) (RMAX W)
  tVal : Vector Bool (RMAX W)
  /-- Result fields (R18); `stCause = none` is code 0, no cause. -/
  stStatus : Status
  stCause : Option Cause
  stCorr : Bool
  deriving DecidableEq, Repr

/-- The registers right after power-on: `phase = Idle` (10_state.md R23); every other register has no value in the
spec and holds zero here. DESIGN CHOICE, notes/assumptions/1.md. -/
def Regs.reset (W : Nat) : Regs W where
  phase := .idle
  qOp := 0
  qLen := 0
  qR := 0
  qBits := 0
  wM := 0
  wR := 0
  wN := 0
  wSeq := 0
  wPos := 0
  wOut := 0
  tCov := Vector.replicate _ 0
  tObs := Vector.replicate _ 0
  tVal := Vector.replicate _ false
  stStatus := .ok
  stCause := none
  stCorr := false

/-- An instance of the block with its surroundings. `W` is the build parameter (00_scope.md R9): no step writes it.
`inputs` are the samples of the input pins at the coming steps, the next one first; each step takes one, and a list
that has run out reads as quiet pins (notes/assumptions/3.md). -/
structure State where
  W : Nat
  inputs : List (PortIn W)
  regs : Regs W
  deriving DecidableEq, Repr

/-- The machine right after reset (10_state.md R23): an instance with `W = 16` (notes/assumptions/2.md) on which the
caller has not yet driven anything. -/
def State.reset : State where
  W := Config.W
  inputs := []
  regs := Regs.reset Config.W

/-- Reasons for the machine to stop with a fault: none. Every request that can be presented has a defined response
(93_implementation_defined.md section 2), and the block's two failures are phases, not stops (45_sequencer.md R140). -/
inductive Fault where
  deriving DecidableEq, Repr

/-- Reasons for having no meaning for an instruction. -/
inductive Refusal where
  /-- An operation that is not modelled yet. No arm of `exec` raises it. Safe. -/
  | notModelled (mnemonic : String)
  /-- Raised by `step` alone, if the word it fetched selects no operation. Safe: the fetch never yields such a word. -/
  | selectsNoOperation (why : Reject)
  deriving DecidableEq, Repr

end Sys2Proof.Machine
end

