-- ==== Sys2Proof/Machine/Operands.lean ====
section
/-! DEFINITION. The operand forms: bits by Position, text form, bus form and the assembly of an operand from the
request port (spec/00_scope.md section 5.2, spec/20_memory.md, spec/30_encoding.md R51 and R62). -/

namespace Sys2Proof.Machine

/-- `ispow2 p`: `p` is one of 1, 2, 4, 8, … (00_scope.md section 5.1). -/
def ispow2 (p : Nat) : Bool := decide (1 ≤ p) && decide (p &&& (p - 1) = 0)

/-- `bit(S, p)`, for `p` in `1..len(S)` (00_scope.md section 5.2). No rule reads another position (20_memory.md R37);
such a read gives 0 here (notes/assumptions/7.md). -/
def bit (S : BitString) (p : Nat) : Bool := if p = 0 then false else S.getD (p - 1) false

/-- `setbit(S, p, v)`: `S` except that position `p` holds `v`. A position outside `1..len(S)` is never written
(20_memory.md R37), so there `S` is returned as it is. -/
def setbit (S : BitString) (p : Nat) (v : Bool) : BitString := if p = 0 then S else S.set (p - 1) v

/-- `zeros(n)`. -/
def zeros (n : Nat) : BitString := List.replicate n false

/-- `val(S) = sum of bit(S, p) * 2^(p-1)`, the text read as a binary numeral. -/
def val : BitString → Nat
  | [] => 0
  | b :: S => b.toNat + 2 * val S

/-- The character of a bit. -/
def bitChar (b : Bool) : Char := if b then '1' else '0'

/-- `text(S)`: leftmost character first, so the character at index `k` is position `n - k` (20_memory.md R32). -/
def text (S : BitString) : Text := S.reverse.map bitChar

/-- The two characters a bit string may hold. -/
def isBinary (c : Char) : Bool := c == '0' || c == '1'

/-- `parse(T)` (30_encoding.md R51): a text becomes a bit string or fails with EMPTY or MALFORMED. -/
def parse (T : Text) : Except Cause BitString :=
  if T.isEmpty then .error .empty
  else if T.all isBinary then .ok (T.reverse.map (· == '1'))
  else .error .malformed

/-- The bit string of length `len` carried on a bus: position `p` is bus bit `p - 1` (20_memory.md R33,
30_encoding.md R62). -/
def ofBus {W : Nat} (len : Nat) (bits : BitVec W) : BitString := (List.range len).map fun k => bits.getLsbD k

/-- `zext_W(val(S))`: a bit string put on a `W`-bit bus or register (20_memory.md R33, 10_state.md R16). -/
def toBus (W : Nat) (S : BitString) : BitVec W := BitVec.ofNat W (val S)

/-- `bits[W-1 : len] != 0`: a 1 above the stated length (30_encoding.md R62). -/
def strayBits {W : Nat} (len : Nat) (bits : BitVec W) : Bool := bits >>> len != 0

/-- The checks both accept steps make on the bit-string operand, in the order of 60_exceptions.md R175: EMPTY, then
CAPACITY for the length, then MALFORMED. -/
def operandFailure {W : Nat} (len : BitVec (LW W)) (bits : BitVec W) : Option Cause :=
  if len.toNat = 0 then some .empty
  else if W < len.toNat then some .capacity
  else if strayBits len.toNat bits then some .malformed
  else none

end Sys2Proof.Machine
end

