-- ==== Sys2Proof/Machine/Flags.lean ====
section
/-! DEFINITION. The result fields `st_status`, `st_cause`, `st_corr` (spec/10_state.md R18), their numeric codes, and
the parity computation (XOR of a list of bits). -/

namespace Sys2Proof.Machine

/-- `xor_all`: 1 exactly when an odd number of the bits are 1, 0 for the empty list (00_scope.md R27). -/
def xorAll : List Bool → Bool
  | [] => false
  | b :: bs => b ^^ xorAll bs

/-- The code of a status on `rsp_status` (30_encoding.md R57). -/
def statusCode : Status → BitVec 2
  | .ok => 0
  | .invalidInput => 1
  | .uncorrectableError => 2

/-- The code of a cause on `rsp_cause`, 0 when there is none (30_encoding.md R58). -/
def causeCode : Option Cause → BitVec 3
  | none => 0
  | some .empty => 1
  | some .malformed => 2
  | some .rMismatch => 3
  | some .badPosition => 4
  | some .capacity => 5

/-- Write the three result fields, as every entry into a terminal phase does (10_state.md R18). -/
def setResult {W : Nat} (status : Status) (cause : Option Cause) (corr : Bool) (g : Regs W) : Regs W :=
  { g with stStatus := status, stCause := cause, stCorr := corr }

/-- The status each terminal phase carries (10_state.md R18, 30_encoding.md R59); none for the other phases. -/
def statusOfPhase : Phase → Option Status
  | .encoded => some .ok
  | .noError => some .ok
  | .corrected => some .ok
  | .uncorrectableError => some .uncorrectableError
  | .invalidInput => some .invalidInput
  | .idle => none
  | .countParityBits => none
  | .interleave => none
  | .computeParity => none
  | .computeSyndrome => none
  | .singleBitError => none

/-- The terminal phases (45_sequencer.md R131). -/
def isTerminal (p : Phase) : Bool := (statusOfPhase p).isSome

end Sys2Proof.Machine
end

