-- ==== Sys2Proof/Machine/Ops.lean ====
section
/-! DEFINITION. The operations over registers that the steps share: latching a request, entering a failure and
leaving it, ending in success, the trace registers, the coverage sets, and the phase codes. -/

namespace Sys2Proof.Machine

/-- The code of a phase (30_encoding.md R59). -/
def phaseCode : Phase → BitVec 4
  | .idle => 0
  | .countParityBits => 1
  | .interleave => 2
  | .computeParity => 3
  | .encoded => 4
  | .computeSyndrome => 5
  | .noError => 6
  | .singleBitError => 7
  | .corrected => 8
  | .uncorrectableError => 9
  | .invalidInput => 10

/-- The working phases, in which one step is always enabled (45_sequencer.md R131). -/
def isWorking : Phase → Bool
  | .countParityBits => true
  | .interleave => true
  | .computeParity => true
  | .computeSyndrome => true
  | .singleBitError => true
  | .idle => false
  | .encoded => false
  | .noError => false
  | .corrected => false
  | .uncorrectableError => false
  | .invalidInput => false

/-- Replace the registers of a state; the parameter and the pins stay. -/
def updRegs (s : State) (f : Regs s.W → Regs s.W) : State := { s with regs := f s.regs }

/-- `phase <- p` and nothing else. -/
def setPhase {W : Nat} (p : Phase) (g : Regs W) : Regs W := { g with phase := p }

/-- Copy the fields of an accepted request into the latches (10_state.md R15). -/
def latch {W : Nat} (op : BitVec 1) (len r : BitVec (LW W)) (bits : BitVec W) (g : Regs W) : Regs W :=
  { g with qOp := op, qLen := len, qR := r, qBits := bits }

/-- FAILURE ENTRY, `fail(c)`: the block's form of taking an exception (60_exceptions.md R176, 45_sequencer.md section 2
and R140). Nothing is saved and no mode changes. -/
def fail {W : Nat} (c : Cause) (g : Regs W) : Regs W :=
  setPhase .invalidInput (setResult .invalidInput (some c) false g)

/-- Entry into the failure UncorrectableError (60_exceptions.md R176, third exit of 45_sequencer.md R137). -/
def failUncorrectable {W : Nat} (g : Regs W) : Regs W :=
  setPhase .uncorrectableError (setResult .uncorrectableError none false g)

/-- End with status OK in the terminal phase `p` (45_sequencer.md R136, R137, R138). -/
def finish {W : Nat} (p : Phase) (corr : Bool) (g : Regs W) : Regs W :=
  setPhase p (setResult .ok none corr g)

/-- RETURN: the acknowledge step, `phase <- Idle`, the same for a failure as for a success (45_sequencer.md R141,
60_exceptions.md R177). -/
def acknowledge {W : Nat} (g : Regs W) : Regs W := setPhase .idle g

/-- The effect of the `rst` input: `phase <- Idle` and nothing else (70_reset_and_hazards.md R200;
notes/assumptions/4.md). -/
def resetBlock {W : Nat} (g : Regs W) : Regs W := setPhase .idle g

/-- A step that is enabled in one phase only (45_sequencer.md R131 to R138): performed in that phase; in another one
it is not enabled and changes nothing (notes/assumptions/9.md). -/
def inPhase {W : Nat} (p : Phase) (f : Regs W → Regs W) (g : Regs W) : Regs W := if g.phase = p then f g else g

/-- The coverage set `cov(n, i)`, in increasing order (42_parity_computer.md R101). -/
def cov (n i : Nat) : List Nat := (List.range' 1 n).filter fun j => j &&& 2 ^ i == 2 ^ i

/-- One trace entry (30_encoding.md R60). -/
structure TraceEntry where
  index : Nat
  position : Nat
  cover : List Nat
  observed : List Bool
  value : Bool
  deriving DecidableEq, Repr

/-- The bits of `S` at the positions of the coverage set of `i`, as `S` stands. -/
def observed (S : BitString) (i : Nat) : List Bool := (cov S.length i).map (bit S)

/-- The entry of parity index `i` computed from `S` (the loop bodies of 42_parity_computer.md R102 and
43_syndrome_decoder.md R111 before the write-back). -/
def traceEntry (S : BitString) (i : Nat) : TraceEntry where
  index := i
  position := 2 ^ i
  cover := cov S.length i
  observed := observed S i
  value := xorAll (observed S i)

/-- The `W`-bit word with a 1 on bit `p - 1` for every position `p` of the list. -/
def maskOf (W : Nat) : List Nat → BitVec W
  | [] => 0
  | p :: ps => BitVec.twoPow W (p - 1) ||| maskOf W ps

/-- `t_cov[i]` of a trace entry: the coverage set as a mask (10_state.md R17, 30_encoding.md R61). -/
def coverMask (W : Nat) (e : TraceEntry) : BitVec W := maskOf W e.cover

/-- `t_obs[i]` of a trace entry: the observed bits at their positions, 0 elsewhere (10_state.md R17). -/
def observedMask (W : Nat) (e : TraceEntry) : BitVec W :=
  maskOf W (((e.cover.zip e.observed).filter fun q => q.2).map fun q => q.1)

/-- A trace in port form: `RMAX` values, zero for every index beyond the trace (30_encoding.md R61). -/
def portTrace {α : Type} (W : Nat) (zero : α) (f : TraceEntry → α) (entries : List TraceEntry) : Vector α (RMAX W) :=
  Vector.ofFn fun i => (entries[i.val]?).elim zero f

/-- `for i in 0..RMAX-1: t_cov[i], t_obs[i], t_val[i] <- entry i of trace` (45_sequencer.md R136, R137). -/
def writeTrace {W : Nat} (trace : List TraceEntry) (g : Regs W) : Regs W :=
  { g with
    tCov := portTrace W 0 (coverMask W) trace
    tObs := portTrace W 0 (observedMask W) trace
    tVal := portTrace W false TraceEntry.value trace }

end Sys2Proof.Machine
end

