-- ==== Sys2Proof/Machine/Correct.lean ====
section
/-! DEFINITION. CORRECT, the Corrector (spec/44_corrector.md), and its step (spec/45_sequencer.md R138). -/

namespace Sys2Proof.Machine

/-- `CORRECT(X, pos)` (R123): invert one bit; a position of 0 or beyond the word fails with BAD_POSITION (R121). -/
def correct (X : BitString) (pos : Nat) : Except Cause BitString :=
  if pos = 0 ∨ X.length < pos then .error .badPosition else .ok (setbit X pos (!bit X pos))

/-- Step SingleBitError (45_sequencer.md R138): the operand stays in `q_bits`, the result goes to `w_out`. -/
def correctStep {W : Nat} (g : Regs W) : Regs W :=
  match correct (ofBus g.qLen.toNat g.qBits) g.wPos.toNat with
  | .error c => fail c g
  | .ok C => finish .corrected true { g with wOut := toBus W C }

/-- The meaning of `CORRECT`: the step that leaves phase SingleBitError. -/
def execCorrect (s : State) : Host.Outcome State Fault Refusal :=
  .next (updRegs s (inPhase .singleBitError correctStep))

end Sys2Proof.Machine
end

