-- ==== Sys2Proof/Machine/Calcr.lean ====
section
/-! DEFINITION. CALCR, the Redundant-Bit Counter (spec/40_redundant_bit_counter.md), its step CountParityBits
(spec/45_sequencer.md R134), and the consistency check of DECODE that rests on it (spec/47_decode_command.md R163). -/

namespace Sys2Proof.Machine

/-- The upward scan of R81 from `r`, given fuel. -/
def scanR (m : Nat) : Nat → Nat → Nat
  | 0, r => r
  | fuel + 1, r => if 2 ^ r < m + r + 1 then scanR m fuel (r + 1) else r

/-- `CALCR(m)` (R80, R81). It fails with EMPTY for `m = 0` (R82). The scan is not bounded by `m`; its fuel is the bound
`bitlength(m) + 1` of R83. -/
def calcR (m : Nat) : Except Cause Nat :=
  if m = 0 then .error .empty else .ok (scanR m (bitlength m + 1) 0)

/-- `rconsistent(n, r)` (47_decode_command.md R163). -/
def rconsistent (n r : Nat) : Bool :=
  if n ≤ r then false
  else
    match calcR (n - r) with
    | .ok r' => r' == r
    | .error _ => false

/-- Step CountParityBits (45_sequencer.md R134). The sum `m + r` is compared with `W` exactly, before it is stored. -/
def countParityBits {W : Nat} (g : Regs W) : Regs W :=
  match calcR g.wM.toNat with
  | .error c => fail c g
  | .ok r =>
    if W < g.wM.toNat + r then fail .capacity g
    else { g with wR := BitVec.ofNat _ r, wN := BitVec.ofNat _ (g.wM.toNat + r), phase := .interleave }

/-- The meaning of `CALCR`: the step that leaves phase CountParityBits. -/
def execCalcr (s : State) : Host.Outcome State Fault Refusal :=
  .next (updRegs s (inPhase .countParityBits countParityBits))

end Sys2Proof.Machine
end

