-- ==== Sys2Proof/Machine/Interleave.lean ====
section
/-! DEFINITION. INTERLEAVE, the Placeholder Interleaver (spec/41_interleaver.md), and its step
(spec/45_sequencer.md R135). -/

namespace Sys2Proof.Machine

/-- The loop of R91 over the `count` positions from `p` on: `k` data bits are placed, `i` is the index of the next
power of two not yet met. The result lists position `p` first. -/
def placeFrom (D : BitString) (r : Nat) : (count p k i : Nat) → BitString
  | 0, _, _, _ => []
  | count + 1, p, k, i =>
    if i < r ∧ p = 2 ^ i then false :: placeFrom D r count (p + 1) k (i + 1)
    else bit D (k + 1) :: placeFrom D r count (p + 1) (k + 1) i

/-- A result for `m` data bits and `r`, refused for an `r` that is not `CALCR(m)` (R94, U2, decision D22): the failure is
`InvalidInput`, with CALCR's own cause for `m = 0` and R_MISMATCH otherwise. The cause is the model's choice (DESIGN
CHOICE, notes/assumptions/6.md). -/
def forCount {α : Type} (m r : Nat) (result : α) : Except Cause α :=
  match calcR m with
  | .error c => .error c
  | .ok r' => if r' = r then .ok result else .error .rMismatch

/-- `INTERLEAVE(D, r)` (R90, R91), refused for other `r` (R94). -/
def interleave (D : BitString) (r : Nat) : Except Cause BitString :=
  forCount D.length r (placeFrom D r (D.length + r) 1 0 0)

/-- The loop of the document's second formulation (R92): the reversed output, character by character, the `k`-th data
character `T[m-1-k]` taken from the tail of the text. With `r = CALCR(m)` no character beyond the text is read; the `0`
such a read would give is the model's choice (DESIGN CHOICE, notes/assumptions/6.md) and is never delivered. -/
def placeTextFrom (T : Text) (r : Nat) : (count p k i : Nat) → Text
  | 0, _, _, _ => []
  | count + 1, p, k, i =>
    if i < r ∧ p = 2 ^ i then '0' :: placeTextFrom T r count (p + 1) k (i + 1)
    else T.reverse.getD k '0' :: placeTextFrom T r count (p + 1) (k + 1) i

/-- `INTERLEAVE_text(T, r)` (R92), refused for other `r` as INTERLEAVE is (R94). The spec gives the text formulation for
valid operands and says nothing of its own about another `r`: that it refuses too, and with which cause, is the model's
choice (DESIGN CHOICE, notes/assumptions/6.md). -/
def interleaveText (T : Text) (r : Nat) : Except Cause Text :=
  forCount T.length r (placeTextFrom T r (T.length + r) 1 0 0).reverse

/-- Step Interleave (45_sequencer.md R135): `D` is the latched operand. -/
def interleaveStep {W : Nat} (g : Regs W) : Regs W :=
  match interleave (ofBus g.qLen.toNat g.qBits) g.wR.toNat with
  | .error c => fail c g
  | .ok S => { g with wSeq := toBus W S, phase := .computeParity }

/-- The meaning of `INTERLEAVE`: the step that leaves phase Interleave. -/
def execInterleave (s : State) : Host.Outcome State Fault Refusal :=
  .next (updRegs s (inPhase .interleave interleaveStep))

end Sys2Proof.Machine
end

