-- ==== Sys2Proof/Machine/Parity.lean ====
section
/-! DEFINITION. PARITY, the Parity Computer (spec/42_parity_computer.md), and its step (spec/45_sequencer.md R136). -/

namespace Sys2Proof.Machine

/-- The loop body of R102 for the indices of a list, in that order, each seeing the write-backs of the earlier ones;
the entry is read before its own write-back (R106). -/
def parityFrom : List Nat → BitString → BitString × List TraceEntry
  | [], S => (S, [])
  | i :: is, S =>
    let e := traceEntry S i
    let rest := parityFrom is (setbit S e.position e.value)
    (rest.1, e :: rest.2)

/-- `PARITY(S, r)`: the indices `0 .. r-1` in increasing order (R102, R103). It follows the literal procedure on every
sequence (R108, decision D22). -/
def parity (S : BitString) (r : Nat) : BitString × List TraceEntry := parityFrom (List.range r) S

/-- Step ComputeParity (45_sequencer.md R136): `S` is `w_seq` with length `w_n`. -/
def parityStep {W : Nat} (g : Regs W) : Regs W :=
  let result := parity (ofBus g.wN.toNat g.wSeq) g.wR.toNat
  finish .encoded false (writeTrace result.2 { g with wSeq := toBus W result.1 })

/-- The meaning of `PARITY`: the step that leaves phase ComputeParity. -/
def execParity (s : State) : Host.Outcome State Fault Refusal :=
  .next (updRegs s (inPhase .computeParity parityStep))

end Sys2Proof.Machine
end

