-- ==== Sys2Proof/Machine/EncodeCommand.lean ====
section
/-! DEFINITION. ENCODE (spec/46_encode_command.md): the whole command at the abstract and text levels, and the step
"accept ENCODE" of the port level (spec/45_sequencer.md R132). -/

namespace Sys2Proof.Machine

/-- The failures of a command (60_exceptions.md R170). With UncorrectableError the out-of-range position and the trace
are presented for information (R174, decision D15). -/
inductive Failure where
  | invalidInput (cause : Cause)
  | uncorrectableError (errorPosition : Nat) (trace : List TraceEntry)
  deriving DecidableEq, Repr

/-- The `Ok` result of ENCODE (30_encoding.md R53). -/
structure EncodeOk where
  codeword : BitString
  r : Nat
  trace : List TraceEntry
  deriving DecidableEq, Repr

/-- `ENCODE(D)` at the abstract level (R151): CALCR, INTERLEAVE, PARITY. -/
def encodeAbstract (D : BitString) : Except Failure EncodeOk :=
  match calcR D.length with
  | .error c => .error (.invalidInput c)
  | .ok r =>
    match interleave D r with
    | .error c => .error (.invalidInput c)
    | .ok S => .ok ⟨(parity S r).1, r, (parity S r).2⟩

/-- `ENCODE_text(T)` (R151): the codeword is delivered as `text(C)`. -/
def encodeText (T : Text) : Except Failure (Text × Nat × List TraceEntry) :=
  match parse T with
  | .error c => .error (.invalidInput c)
  | .ok D =>
    match encodeAbstract D with
    | .error f => .error f
    | .ok e => .ok (text e.codeword, e.r, e.trace)

/-- Step "accept ENCODE" (45_sequencer.md R132). `req_r` is latched and has no other effect (30_encoding.md R63). -/
def acceptEncode {W : Nat} (len r : BitVec (LW W)) (bits : BitVec W) (g : Regs W) : Regs W :=
  let g' := latch 0#1 len r bits g
  match operandFailure len bits with
  | some c => fail c g'
  | none => { g' with wM := len, phase := .countParityBits }

/-- The meaning of `ENCODE`: the step that accepts the request, in phase Idle; the component steps then compute the
command (45_sequencer.md R130, R143). In another phase the request is ignored (R144). -/
def execEncode (len r bits : Nat) (s : State) : Host.Outcome State Fault Refusal :=
  .next (updRegs s (inPhase .idle
    (acceptEncode (BitVec.ofNat (LW s.W) len) (BitVec.ofNat (LW s.W) r) (BitVec.ofNat s.W bits))))

end Sys2Proof.Machine
end

