-- ==== Sys2Proof/Machine/Syndrome.lean ====
section
/-! DEFINITION. SYNDROME, the Error Detector / Syndrome Decoder (spec/43_syndrome_decoder.md), and its step
(spec/45_sequencer.md R137). -/

namespace Sys2Proof.Machine

/-- The syndrome trace: one entry per index `0 .. r-1`, all computed from the received word (R111, R113). -/
def syndromeTrace (X : BitString) (r : Nat) : List TraceEntry := (List.range r).map (traceEntry X)

/-- `pos <- pos | (s_i << i)` over the entries of a trace (R111, R112). -/
def assemble (trace : List TraceEntry) : Nat :=
  trace.foldl (fun pos e => pos ||| (e.value.toNat <<< e.index)) 0

/-- `SYNDROME(X, r)`: the ErrorPosition and the trace (R111). It follows the literal procedure for every `X` and `r`
(R115, decision D22). -/
def syndrome (X : BitString) (r : Nat) : Nat × List TraceEntry :=
  (assemble (syndromeTrace X r), syndromeTrace X r)

/-- The outcome classes (R114). -/
inductive OutcomeClass where
  | noError
  | singleBitError (pos : Nat)
  | uncorrectableError
  deriving DecidableEq, Repr

/-- The class of an ErrorPosition in a word of length `n` (R114): `pos = n` is still correctable. -/
def classify (n pos : Nat) : OutcomeClass :=
  if pos = 0 then .noError else if pos ≤ n then .singleBitError pos else .uncorrectableError

/-- Step ComputeSyndrome (45_sequencer.md R137): `X` is the latched received word, `w_out` receives a copy of it, and
the class of the position, stored in `w_pos`, chooses the exit. -/
def syndromeStep {W : Nat} (g : Regs W) : Regs W :=
  let result := syndrome (ofBus g.qLen.toNat g.qBits) g.wR.toNat
  let g' := writeTrace result.2 { g with wPos := BitVec.ofNat _ result.1, wOut := g.qBits }
  match classify g.wN.toNat result.1 with
  | .noError => finish .noError false g'
  | .singleBitError _ => setPhase .singleBitError g'
  | .uncorrectableError => failUncorrectable g'

/-- The meaning of `SYNDROME`: the step that leaves phase ComputeSyndrome. -/
def execSyndrome (s : State) : Host.Outcome State Fault Refusal :=
  .next (updRegs s (inPhase .computeSyndrome syndromeStep))

end Sys2Proof.Machine
end

