-- ==== Sys2Proof/Machine/DecodeCommand.lean ====
section
/-! DEFINITION. DECODE (spec/47_decode_command.md): the whole command at the abstract and text levels, and the step
"accept DECODE" of the port level (spec/45_sequencer.md R133). -/

namespace Sys2Proof.Machine

/-- The `Ok` result of DECODE (30_encoding.md R53). -/
structure DecodeOk where
  errorPosition : Nat
  syndromeTrace : List TraceEntry
  corrected : Option BitString
  deriving DecidableEq, Repr

/-- `DECODE(X, r)` at the abstract level (R161). -/
def decodeAbstract (X : BitString) (r : Nat) : Except Failure DecodeOk :=
  if rconsistent X.length r then
    let result := syndrome X r
    match classify X.length result.1 with
    | .noError => .ok ⟨0, result.2, none⟩
    | .uncorrectableError => .error (.uncorrectableError result.1 result.2)
    | .singleBitError pos =>
      match correct X pos with
      | .error c => .error (.invalidInput c)
      | .ok C => .ok ⟨pos, result.2, some C⟩
  else .error (.invalidInput .rMismatch)

/-- `DECODE_text(T, r)` (R161): the corrected word is delivered as text. -/
def decodeText (T : Text) (r : Nat) : Except Failure (Nat × List TraceEntry × Option Text) :=
  match parse T with
  | .error c => .error (.invalidInput c)
  | .ok X =>
    match decodeAbstract X r with
    | .error f => .error f
    | .ok d => .ok (d.errorPosition, d.syndromeTrace, d.corrected.map text)

/-- The `InvalidInput` checks of DECODE, in order (60_exceptions.md R175): the operand's, then R_MISMATCH. -/
def decodeFailure {W : Nat} (len r : BitVec (LW W)) (bits : BitVec W) : Option Cause :=
  match operandFailure len bits with
  | some c => some c
  | none => if rconsistent len.toNat r.toNat then none else some .rMismatch

/-- Step "accept DECODE" (45_sequencer.md R133). -/
def acceptDecode {W : Nat} (len r : BitVec (LW W)) (bits : BitVec W) (g : Regs W) : Regs W :=
  let g' := latch 1#1 len r bits g
  match decodeFailure len r bits with
  | some c => fail c g'
  | none => { g' with wN := len, wR := r, phase := .computeSyndrome }

/-- The meaning of `DECODE`: the step that accepts the request, in phase Idle; the component steps then compute the
command (45_sequencer.md R130, R143). In another phase the request is ignored (R144). -/
def execDecode (len r bits : Nat) (s : State) : Host.Outcome State Fault Refusal :=
  .next (updRegs s (inPhase .idle
    (acceptDecode (BitVec.ofNat (LW s.W) len) (BitVec.ofNat (LW s.W) r) (BitVec.ofNat s.W bits))))

end Sys2Proof.Machine
end

