-- ==== Sys2Proof/Machine/Dispatch.lean ====
section
/-! DEFINITION. One arm per operation: which meaning an instruction has. -/

namespace Sys2Proof.Machine

def exec (i : Instr) (s : State) : Host.Outcome State Fault Refusal :=
  match i with
  | .encode len r bits => Sys2Proof.Machine.execEncode len r bits s
  | .decode len r bits => Sys2Proof.Machine.execDecode len r bits s
  | .calcr => Sys2Proof.Machine.execCalcr s
  | .interleave => Sys2Proof.Machine.execInterleave s
  | .parity => Sys2Proof.Machine.execParity s
  | .syndrome => Sys2Proof.Machine.execSyndrome s
  | .correct => Sys2Proof.Machine.execCorrect s

end Sys2Proof.Machine
end

