-- ==== Sys2Proof/Machine/Fetch.lean ====
section
/-! DEFINITION. What a step samples and what it selects: the input pins, the word that selects the operation, and the
steps that perform no operation (spec/45_sequencer.md R141, R144; spec/70_reset_and_hazards.md R200). -/

namespace Sys2Proof.Machine

/-- The pins sampled at the coming step; quiet when the caller drives nothing. -/
def pins (s : State) : PortIn s.W := s.inputs.headD (PortIn.quiet s.W)

/-- The state with the coming step's sample taken. -/
def afterSample (s : State) : State := { s with inputs := s.inputs.tail }

/-- The request word on the request port (30_encoding.md R54). -/
def portWord {W : Nat} (p : PortIn W) : BitVec (reqWidth W) := packReq p.reqOp p.reqLen p.reqR p.reqBits

/-- The word that selects the coming step's operation: in `Idle` the request port's, if a request is presented
(45_sequencer.md R144); in a working phase the phase code (30_encoding.md R59); in a terminal phase none (R139). -/
def fetch (s : State) : Option (InstrWord s.W) :=
  if s.regs.phase = .idle then
    if (pins s).reqValid then some (.req (portWord (pins s))) else none
  else if isWorking s.regs.phase then some (.phase (phaseCode s.regs.phase)) else none

/-- The step when no operation is selected: acknowledge in a terminal phase with `rsp_ack = 1`, else the phase is held
(45_sequencer.md R139, R141, R144). -/
def handshake {W : Nat} (ack : Bool) (g : Regs W) : Regs W :=
  if isTerminal g.phase && ack then acknowledge g else g

/-- Pins that present the request word `w` and nothing else. -/
def requestPins {W : Nat} (w : BitVec (reqWidth W)) : PortIn W :=
  { PortIn.quiet W with
    reqValid := true
    reqOp := reqOpField w
    reqLen := reqLenField w
    reqR := reqRField w
    reqBits := reqBitsField w }

/-- The phase with a code; `Idle` for the codes that are never entered. -/
def phaseOfCode (code : BitVec 4) : Phase :=
  if code = 1 then .countParityBits
  else if code = 2 then .interleave
  else if code = 3 then .computeParity
  else if code = 4 then .encoded
  else if code = 5 then .computeSyndrome
  else if code = 6 then .noError
  else if code = 7 then .singleBitError
  else if code = 8 then .corrected
  else if code = 9 then .uncorrectableError
  else if code = 10 then .invalidInput
  else .idle

/-- Place a word where the coming step fetches it: a request word on the request port of an idle block, a phase code in
the phase register. -/
def placeWord (s : State) : InstrWord s.W → State
  | .req w => { s with inputs := requestPins w :: s.inputs, regs := setPhase .idle s.regs }
  | .phase code => { s with inputs := PortIn.quiet s.W :: s.inputs, regs := setPhase (phaseOfCode code) s.regs }

end Sys2Proof.Machine
end

