-- ==== Sys2Proof/Machine/Step.lean ====
section
/-! DEFINITION. One step of the block: one rising clock edge at which something may happen
(spec/45_sequencer.md R131, spec/70_reset_and_hazards.md R200). -/

namespace Sys2Proof.Machine

/-- `rst` has priority over every step; otherwise the selected operation is performed; otherwise the handshake. -/
def step (s : State) : Host.Outcome State Fault Refusal :=
  if (pins s).rst then .next (updRegs (afterSample s) resetBlock)
  else
    match fetch s with
    | none => .next (updRegs (afterSample s) (handshake (pins s).rspAck))
    | some word =>
      match decodeWord word with
      | .ok i => exec i (afterSample s)
      | .error why => .refused (.selectsNoOperation why)

/-- `s` with a word of the opcode table placed where the coming step fetches it (notes/assumptions/10.md). -/
def State.withFetchWord (s : State) (nbits w : Nat) : State :=
  match tableWord s.W nbits w with
  | some word => placeWord s word
  | none => s

end Sys2Proof.Machine
end

