-- ==== Sys2Proof/Machine/Instances.lean ====
section
/-! DEFINITION. Several instances side by side: the independent product of single-instance models
(spec/20_memory.md R42, spec/60_exceptions.md R183). -/

namespace Sys2Proof.Machine

/-- A step of instance `k`; the others stand as they are. There is nothing to do where `k` names no instance. -/
def stepInstance (k : Nat) (ss : List State) : Host.Outcome (List State) Fault Refusal :=
  match ss[k]? with
  | none => .next ss
  | some s =>
    match step s with
    | .next s' => .next (ss.set k s')
    | .fault r => .fault r
    | .refused r => .refused r

end Sys2Proof.Machine
end

