-- ==== Sys2Proof/Machine/Caller.lean ====
section
/-! DEFINITION. The position map of a codeword and the caller's helpers FLIP and EXTRACT (spec/20_memory.md R34, R35;
spec/30_encoding.md R66). They are vocabulary for claims, not operations of the block. -/

namespace Sys2Proof.Machine

/-- The data positions of a word of length `n` in increasing order: those that are no power of two (R34). -/
def dataPositions (n : Nat) : List Nat := (List.range' 1 n).filter fun p => !ispow2 p

/-- `FLIP S, p`: the word with position `p` inverted (error injection, R66). -/
def flipAt (S : BitString) (p : Nat) : BitString := setbit S p (!bit S p)

/-- The word with every position of a list inverted, one after another. -/
def flipAll (S : BitString) (ps : List Nat) : BitString := ps.foldl flipAt S

/-- `EXTRACT S`: the data bits of a codeword, position `dpos(1)` first (R66). -/
def extract (S : BitString) : BitString := (dataPositions S.length).map (bit S)

/-- The number of positions at which two words of one length differ. -/
def distance (S T : BitString) : Nat := ((S.zip T).filter fun q => q.1 != q.2).length

/-- `C` is a codeword: what ENCODE returns for some data (00_scope.md section 6). -/
def IsCodeword (C : BitString) (r : Nat) : Prop :=
  ∃ D e, encodeAbstract D = .ok e ∧ e.codeword = C ∧ e.r = r

end Sys2Proof.Machine
end

