-- ==== Sys2Proof/Machine/Response.lean ====
section
/-! DEFINITION. The response port (spec/30_encoding.md R56 to R58, R61; spec/45_sequencer.md R139), and the answer of a
whole command seen as one atomic step (spec/45_sequencer.md R143). -/

namespace Sys2Proof.Machine

/-- The response fields when the status is not InvalidInput. -/
structure ResponseWord (W : Nat) where
  status : Status
  cause : Option Cause
  len : BitVec (LW W)
  r : BitVec (LW W)
  bits : BitVec W
  errpos : BitVec (LW W)
  corrected : Bool
  tcov : Vector (BitVec W) (RMAX W)
  tobs : Vector (BitVec W) (RMAX W)
  tval : Vector Bool (RMAX W)
  deriving DecidableEq, Repr

/-- What the response port shows while `rsp_valid = 1`. With status InvalidInput only status and cause are defined, so
that arm has nothing else (R56, 93_implementation_defined.md U7; notes/assumptions/5.md). -/
inductive Response (W : Nat) where
  | invalidInput (cause : Option Cause)
  | word (fields : ResponseWord W)
  deriving DecidableEq, Repr

/-- `req_ready = 1` exactly when `phase = Idle` (45_sequencer.md R144). -/
def reqReady {W : Nat} (g : Regs W) : Bool := g.phase == .idle

/-- `rsp_valid = 1` exactly when `phase` is terminal (45_sequencer.md R144). -/
def rspValid {W : Nat} (g : Regs W) : Bool := isTerminal g.phase

/-- `rsp_bits`: `q_op` selects `w_seq` for ENCODE and `w_out` for DECODE (30_encoding.md R56, 90_conflicts.md C10). -/
def rspBits {W : Nat} (g : Regs W) : BitVec W := if g.qOp = 0#1 then g.wSeq else g.wOut

/-- `rsp_errpos`: 0 for ENCODE, `w_pos` for DECODE (30_encoding.md R56). -/
def rspErrpos {W : Nat} (g : Regs W) : BitVec (LW W) := if g.qOp = 0#1 then 0 else g.wPos

/-- The response port, nothing while `rsp_valid = 0` (30_encoding.md R56, 10_state.md R23). -/
def response {W : Nat} (g : Regs W) : Option (Response W) :=
  if rspValid g then
    if g.stStatus = .invalidInput then some (.invalidInput g.stCause)
    else some (.word
      { status := g.stStatus
        cause := g.stCause
        len := g.wN
        r := g.wR
        bits := rspBits g
        errpos := rspErrpos g
        corrected := g.stCorr
        tcov := g.tCov
        tobs := g.tObs
        tval := g.tVal })
  else none

/-- The status pin of a response (30_encoding.md R57). -/
def rspStatus {W : Nat} : Response W → BitVec 2
  | .invalidInput _ => statusCode .invalidInput
  | .word f => statusCode f.status

/-- The cause pin of a response (30_encoding.md R58). -/
def rspCause {W : Nat} : Response W → BitVec 3
  | .invalidInput c => causeCode c
  | .word f => causeCode f.cause

/-- A response with a word, its trace in port form (45_sequencer.md R139). -/
def wordAnswer (W : Nat) (status : Status) (n r : Nat) (bits : BitVec W) (errpos : Nat) (corrected : Bool)
    (trace : List TraceEntry) : Response W :=
  .word
    { status := status
      cause := none
      len := BitVec.ofNat _ n
      r := BitVec.ofNat _ r
      bits := bits
      errpos := BitVec.ofNat _ errpos
      corrected := corrected
      tcov := portTrace W 0 (coverMask W) trace
      tobs := portTrace W 0 (observedMask W) trace
      tval := portTrace W false TraceEntry.value trace }

/-- The answer to ENCODE of a valid operand `D` on an instance of width `W`: the abstract command with the capacity
check of 45_sequencer.md R134 added, in the form of the row `Encoded` of R139. -/
def answerEncode (W : Nat) (D : BitString) : Response W :=
  match encodeAbstract D with
  | .error (.invalidInput c) => .invalidInput (some c)
  | .error (.uncorrectableError pos trace) =>
    wordAnswer W .uncorrectableError D.length 0 (toBus W D) pos false trace
  | .ok e =>
    if W < e.codeword.length then .invalidInput (some .capacity)
    else wordAnswer W .ok e.codeword.length e.r (toBus W e.codeword) 0 false e.trace

/-- The answer to DECODE of a valid operand `X` and `r`: the abstract command in the form of the rows `NoError`,
`Corrected` and `UncorrectableError` of 45_sequencer.md R139. -/
def answerDecode (W : Nat) (X : BitString) (r : Nat) : Response W :=
  match decodeAbstract X r with
  | .error (.invalidInput c) => .invalidInput (some c)
  | .error (.uncorrectableError pos trace) =>
    wordAnswer W .uncorrectableError X.length r (toBus W X) pos false trace
  | .ok d =>
    wordAnswer W .ok X.length r (toBus W (d.corrected.getD X)) d.errorPosition d.corrected.isSome d.syndromeTrace

/-- THE ATOMIC VIEW (45_sequencer.md R143): the answer of a whole command as one function of the request's fields
(46_encode_command.md R151 to R153, 47_decode_command.md R161 to R166, checks in the order of 60_exceptions.md R175). -/
def answer {W : Nat} (op : BitVec 1) (len r : BitVec (LW W)) (bits : BitVec W) : Response W :=
  match operandFailure len bits with
  | some c => .invalidInput (some c)
  | none =>
    if op = 0#1 then answerEncode W (ofBus len.toNat bits)
    else answerDecode W (ofBus len.toNat bits) r.toNat

end Sys2Proof.Machine
end

