-- ==== Sys2Proof/Safety.lean ====
section
/-! DEFINITION. What claims about runs are stated in: the invariant of the sequencer, and quiet surroundings. -/

namespace Sys2Proof.Machine

/-- The latched request passed the checks on its bit string (30_encoding.md R62). -/
def OperandValid {W : Nat} (g : Regs W) : Prop := operandFailure g.qLen g.qBits = none

/-- The latched operand as a bit string: `D` or `X` of 45_sequencer.md section 2. -/
def operand {W : Nat} (g : Regs W) : BitString := ofBus g.qLen.toNat g.qBits

/-- CountParityBits is due: a valid ENCODE is latched and `w_m` holds its length. -/
def CountingInv {W : Nat} (g : Regs W) : Prop := g.qOp = 0#1 ∧ OperandValid g ∧ g.wM = g.qLen

/-- CountParityBits is done: `w_r` and `w_n` hold `CALCR(m)` and `m + CALCR(m)`, untruncated and within `W`. -/
def CountedInv {W : Nat} (g : Regs W) : Prop :=
  CountingInv g ∧ calcR g.wM.toNat = .ok g.wR.toNat ∧ g.wN.toNat = g.wM.toNat + g.wR.toNat ∧ g.wN.toNat ≤ W

/-- ComputeSyndrome is due: a valid DECODE is latched, with a consistent `r`. -/
def ReceivedInv {W : Nat} (g : Regs W) : Prop :=
  g.qOp = 1#1 ∧ OperandValid g ∧ g.wN = g.qLen ∧ g.wR = g.qR ∧ rconsistent g.wN.toNat g.wR.toNat = true

/-- SingleBitError is due: `w_pos` holds the syndrome's position, inside the word, and the trace registers its trace. -/
def LocatedInv {W : Nat} (g : Regs W) : Prop :=
  ReceivedInv g ∧ 1 ≤ g.wPos.toNat ∧ g.wPos.toNat ≤ g.wN.toNat ∧
    g.wPos.toNat = (syndrome (operand g) g.wR.toNat).1 ∧
    g.tCov = portTrace W 0 (coverMask W) (syndrome (operand g) g.wR.toNat).2 ∧
    g.tObs = portTrace W 0 (observedMask W) (syndrome (operand g) g.wR.toNat).2 ∧
    g.tVal = portTrace W false TraceEntry.value (syndrome (operand g) g.wR.toNat).2

/-- A response is presented: it is the atomic answer to the latched request (45_sequencer.md R143), and the result
fields are those of the phase (10_state.md R18). -/
def RespondingInv {W : Nat} (g : Regs W) : Prop :=
  response g = some (answer g.qOp g.qLen g.qR g.qBits) ∧ statusOfPhase g.phase = some g.stStatus ∧
    (g.stCorr = true ↔ g.phase = .corrected) ∧ (g.stCause = none ↔ g.phase ≠ .invalidInput)

/-- What the registers hold in each phase. -/
def RegsInv {W : Nat} (g : Regs W) : Prop :=
  match g.phase with
  | .idle => True
  | .countParityBits => CountingInv g
  | .interleave => CountedInv g
  | .computeParity =>
    CountedInv g ∧ ∃ S, interleave (operand g) g.wR.toNat = .ok S ∧ g.wSeq = toBus W S
  | .computeSyndrome => ReceivedInv g
  | .singleBitError => LocatedInv g
  | .encoded => g.qOp = 0#1 ∧ RespondingInv g
  | .noError => g.qOp = 1#1 ∧ RespondingInv g
  | .corrected => g.qOp = 1#1 ∧ RespondingInv g
  | .uncorrectableError => g.qOp = 1#1 ∧ RespondingInv g
  | .invalidInput => RespondingInv g

/-- THE INVARIANT of the machine: a legal instance width (00_scope.md R9), and registers that hold what the phase says. -/
def Inv (s : State) : Prop := 3 ≤ s.W ∧ RegsInv s.regs

/-- Pins that leave a command alone: no reset and no acknowledge. The request fields may be anything, `req_valid`
included (45_sequencer.md R144). -/
def Undisturbing {W : Nat} (p : PortIn W) : Prop := p.rst = false ∧ p.rspAck = false

/-- Pins on which a request is presented, without reset. -/
def Requests {W : Nat} (p : PortIn W) : Prop := p.rst = false ∧ p.reqValid = true

end Sys2Proof.Machine
end

