-- ==== Sys2Proof/Certificates/Slice0/Obligations.lean ====
section
/-! DEFINITION. The statements for the provers. They quantify over the instance width `W` wherever the port level is
meant, so each one speaks of every instance; `⟨W, ins, g⟩` is a state with pins still to come `ins` (the model's form of
the input ports, notes/assumptions/3.md) and registers `g`. -/

open Sys2Proof Sys2Proof.Machine

namespace Sys2Proof.Machine

/-- What `fail(c)` of 45_sequencer.md section 2 leaves of the registers `q`: three result fields and the phase. -/
def failed {W : Nat} (c : Cause) (q : Regs W) : Regs W :=
  { q with stStatus := .invalidInput, stCause := some c, stCorr := false, phase := .invalidInput }

/-- A 1 stands on `bits` at an index `len` or above, below `W`. -/
def bitAbove {W : Nat} (len : Nat) (bits : BitVec W) : Prop := ∃ k, len ≤ k ∧ k < W ∧ bits.getLsbD k = true

/-- The XOR of the bits of a bus at the positions `1..n` whose number has bit `i` set. -/
def coveredXor {W : Nat} (n i : Nat) (bus : BitVec W) : Bool :=
  xorAll (((List.range' 1 n).filter fun j => j.testBit i).map fun j => bus.getLsbD (j - 1))

/-- The trace registers of `g` are those of a word `bus` of length `n` with `r` parity bits (30_encoding.md R61). -/
def tracesWord {W : Nat} (n r : Nat) (bus : BitVec W) (g : Regs W) : Prop :=
  ∀ (i : Nat) (h : i < RMAX W),
    (∀ p, 1 ≤ p → p ≤ W →
      (g.tCov[i].getLsbD (p - 1) = true ↔ i < r ∧ p ≤ n ∧ p &&& 2 ^ i = 2 ^ i)) ∧
    g.tObs[i] = bus &&& g.tCov[i] ∧
    g.tVal[i] = xorAll ((List.range W).map fun k => g.tObs[i].getLsbD k)

/-- The trace ports of a response show `trace` (10_state.md R17, 30_encoding.md R61). -/
def showsTrace {W : Nat} (trace : List TraceEntry) (f : ResponseWord W) : Prop :=
  f.tcov = portTrace W 0 (coverMask W) trace ∧ f.tobs = portTrace W 0 (observedMask W) trace ∧
    f.tval = portTrace W false TraceEntry.value trace

end Sys2Proof.Machine

/-! ### Encoding -/

/-- Decoding an encoded well-formed instruction gives it back, every operand at every value its port admits
(30_encoding.md sections 4 and 5). -/
def Obligations.DecodeInvertsEncode : Prop :=
  ∀ (W : Nat) (i : Instr), i.wf W = true → decodeWord (encodeWord W i) = .ok i

/-- Every word that decodes is the encoding of its instruction, which is well formed: no two words share a meaning. -/
def Obligations.EncodeInvertsDecode : Prop :=
  ∀ (W : Nat) (w : InstrWord W) (i : Instr), decodeWord w = .ok i → i.wf W = true ∧ encodeWord W i = w

/-- 30_encoding.md R55: `req_op` alone selects the command, no request is illegal, and a request never selects a
component operation; those are selected by the phase register, each by the code R59 gives its phase. -/
def Obligations.RequestSelectsCommand : Prop :=
  ∀ (W : Nat) (op : BitVec 1) (len r : BitVec (LW W)) (bits : BitVec W),
    decodeWord (.req (packReq op len r bits)) =
        .ok (if op = 0#1 then .encode len.toNat r.toNat bits.toNat else .decode len.toNat r.toNat bits.toNat) ∧
      (∀ i : Instr, (∃ w : BitVec (reqWidth W), decodeWord (.req w) = .ok i) →
        i ≠ .calcr ∧ i ≠ .interleave ∧ i ≠ .parity ∧ i ≠ .syndrome ∧ i ≠ .correct) ∧
      decodeWord (.phase 1#4 : InstrWord W) = .ok .calcr ∧ decodeWord (.phase 2#4 : InstrWord W) = .ok .interleave ∧
      decodeWord (.phase 3#4 : InstrWord W) = .ok .parity ∧ decodeWord (.phase 5#4 : InstrWord W) = .ok .syndrome ∧
      decodeWord (.phase 7#4 : InstrWord W) = .ok .correct

/-- Words written out from the spec's encodings (95_test_vectors.md sections 3.8, 4, 6; 30_encoding.md R59) decode to
the instructions they stand for. How a word of the table is numbered, and that it is read on the instance `W = 16`, is
the model's choice (notes/assumptions/10.md, notes/assumptions/2.md). -/
def Obligations.WrittenOutWordsDecode : Prop :=
  decodeTableWord 32 0b000111000000000000001011001 = some (.encode 7 0 0x59) ∧
    decodeTableWord 32 0b101011001000000010101011110 = some (.decode 11 4 0x55E) ∧
    decodeTableWord 32 0b000001000000000000000000001 = some (.encode 1 0 1) ∧
    decodeTableWord 32 0b100011000100000000000000110 = some (.decode 3 2 6) ∧
    decodeTableWord 4 0b0001 = some .calcr ∧ decodeTableWord 4 0b0010 = some .interleave ∧
    decodeTableWord 4 0b0011 = some .parity ∧ decodeTableWord 4 0b0101 = some .syndrome ∧
    decodeTableWord 4 0b0111 = some .correct ∧ decodeTableWord 4 0b1011 = none

/-! ### The step -/

/-- A step without reset runs the instruction decoded from the request port (in Idle, with a request) or from the phase
code (in a working phase); all it adds is to take the sample of the pins. -/
def Obligations.StepRunsDecodedInstruction : Prop :=
  ∀ (s : State) (i : Instr), (pins s).rst = false →
    (s.regs.phase = .idle → (pins s).reqValid = true → decodeWord (.req (portWord (pins s))) = .ok i →
      step s = exec i (afterSample s)) ∧
    (isWorking s.regs.phase = true → decodeWord (.phase (phaseCode s.regs.phase) : InstrWord s.W) = .ok i →
      step s = exec i (afterSample s))

/-- A word placed where the step fetches is the word the very next step runs. Placing it, as the caller's request or as
the phase the block is in, is the model's choice (notes/assumptions/10.md). -/
def Obligations.PlacedWordIsRun : Prop :=
  ∀ (s : State) (w : InstrWord s.W) (i : Instr), decodeWord w = .ok i →
    step (placeWord s w) = exec i (afterSample (placeWord s w))

/-- There is no undefined behaviour in the block (93_implementation_defined.md section 2): every state has a next state,
in which the width is the same and one sample of the pins has been taken. -/
def Obligations.StepNeverStops : Prop :=
  ∀ s : State, ∃ g : Regs s.W, step s = .next ⟨s.W, s.inputs.tail, g⟩

/-- `rst = 1` makes the phase Idle, writes nothing else, and wins over every step, whatever the phase and the other pins
(70_reset_and_hazards.md section 1). That the other registers KEEP their contents is the model's reading,
notes/assumptions/4.md. -/
def Obligations.ResetInputWinsOverEveryStep : Prop :=
  ∀ (W : Nat) (p : PortIn W) (ins : List (PortIn W)) (g : Regs W), p.rst = true →
    step ⟨W, p :: ins, g⟩ = .next ⟨W, ins, { g with phase := .idle }⟩ ∧
      reqReady { g with phase := .idle } = true ∧ response { g with phase := .idle } = none

/-- 45_sequencer.md R144, the handshake: when the block is ready and when it responds; what it does with the request
fields, with no request in Idle, with an acknowledge, and with an acknowledge and a request at once. -/
def Obligations.HandshakeFollowsPhase : Prop :=
  ∀ (W : Nat) (ins : List (PortIn W)) (g : Regs W),
    (reqReady g = true ↔ g.phase = .idle) ∧
    (rspValid g = true ↔ g.phase = .encoded ∨ g.phase = .noError ∨ g.phase = .corrected ∨
      g.phase = .uncorrectableError ∨ g.phase = .invalidInput) ∧
    (∀ p : PortIn W, g.phase = .idle → Requests p → ∃ g' : Regs W,
      step ⟨W, p :: ins, g⟩ = .next ⟨W, ins, g'⟩ ∧ g'.phase ≠ .idle ∧
        g'.qOp = p.reqOp ∧ g'.qLen = p.reqLen ∧ g'.qR = p.reqR ∧ g'.qBits = p.reqBits) ∧
    (∀ p p' : PortIn W, g.phase ≠ .idle → p.rst = p'.rst → p.rspAck = p'.rspAck →
      step ⟨W, p :: ins, g⟩ = step ⟨W, p' :: ins, g⟩) ∧
    (∀ p : PortIn W, g.phase = .idle → p.rst = false → p.reqValid = false →
      step ⟨W, p :: ins, g⟩ = .next ⟨W, ins, g⟩) ∧
    (∀ p : PortIn W, rspValid g = true → p.rst = false → p.rspAck = true →
      step ⟨W, p :: ins, g⟩ = .next ⟨W, ins, { g with phase := .idle }⟩) ∧
    (∀ (p : PortIn W) (ack : Bool), rspValid g = false →
      step ⟨W, { p with rspAck := ack } :: ins, g⟩ = step ⟨W, p :: ins, g⟩)

/-- 45_sequencer.md R141, R139: without acknowledge and reset a terminal phase is held for any number of steps, no
register changes, so neither does the response. -/
def Obligations.TerminalPhaseIsHeld : Prop :=
  ∀ (k W : Nat) (ins : List (PortIn W)) (g : Regs W), rspValid g = true → (∀ p ∈ ins, Undisturbing p) →
    Host.Core.run core k ⟨W, ins, g⟩ = .next (⟨W, ins.drop k, g⟩ : State)

/-- 45_sequencer.md R130, 10_state.md R14: in every state that meets the invariant, without reset the phase moves only
along the edges of the state machine (with the entries into InvalidInput of R132 to R134 and the return to Idle), or is
held while the block waits. -/
def Obligations.PhaseMovesAlongEdges : Prop :=
  ∀ s t : State, Inv s → step s = .next t → (pins s).rst = false →
    (s.regs.phase = .idle ∧ t.regs.phase ∈ [.idle, .countParityBits, .computeSyndrome, .invalidInput]) ∨
    (s.regs.phase = .countParityBits ∧ t.regs.phase ∈ [.interleave, .invalidInput]) ∨
    (s.regs.phase = .interleave ∧ t.regs.phase = .computeParity) ∨
    (s.regs.phase = .computeParity ∧ t.regs.phase = .encoded) ∨
    (s.regs.phase = .computeSyndrome ∧ t.regs.phase ∈ [.noError, .singleBitError, .uncorrectableError]) ∨
    (s.regs.phase = .singleBitError ∧ t.regs.phase = .corrected) ∨
    (rspValid s.regs = true ∧ t.regs.phase ∈ [.idle, s.regs.phase])

/-- 10_state.md R15: the step that accepts a request copies its fields into the latches; no other step of the sequencer
writes them. (A step with `rst = 1` is ResetInputWinsOverEveryStep's.) -/
def Obligations.LatchesKeepAcceptedRequest : Prop :=
  ∀ (W : Nat) (p : PortIn W) (ins : List (PortIn W)) (g g' : Regs W),
    step ⟨W, p :: ins, g⟩ = .next ⟨W, ins, g'⟩ →
    (g.phase = .idle ∧ Requests p →
      g'.qOp = p.reqOp ∧ g'.qLen = p.reqLen ∧ g'.qR = p.reqR ∧ g'.qBits = p.reqBits) ∧
    (p.rst = false → ¬ (g.phase = .idle ∧ Requests p) →
      g'.qOp = g.qOp ∧ g'.qLen = g.qLen ∧ g'.qR = g.qR ∧ g'.qBits = g.qBits)

/-! ### The instructions -/

/-- 45_sequencer.md R132, accept ENCODE: the request is latched; the first check that fails decides the cause; else
`w_m` takes the length and CountParityBits is next. Nothing else changes. It is the step of a request with `req_op = 0`. -/
def Obligations.EncodeRequestIsAccepted : Prop :=
  ∀ (W : Nat) (ins : List (PortIn W)) (g : Regs W) (len r : BitVec (LW W)) (bits : BitVec W) (q : Regs W),
    g.phase = .idle → q = { g with qOp := 0#1, qLen := len, qR := r, qBits := bits } →
    (len.toNat = 0 →
      exec (.encode len.toNat r.toNat bits.toNat) ⟨W, ins, g⟩ = .next ⟨W, ins, failed .empty q⟩) ∧
    (len.toNat ≠ 0 → W < len.toNat →
      exec (.encode len.toNat r.toNat bits.toNat) ⟨W, ins, g⟩ = .next ⟨W, ins, failed .capacity q⟩) ∧
    (len.toNat ≠ 0 → len.toNat ≤ W → bitAbove len.toNat bits →
      exec (.encode len.toNat r.toNat bits.toNat) ⟨W, ins, g⟩ = .next ⟨W, ins, failed .malformed q⟩) ∧
    (len.toNat ≠ 0 → len.toNat ≤ W → ¬ bitAbove len.toNat bits →
      exec (.encode len.toNat r.toNat bits.toNat) ⟨W, ins, g⟩ =
        .next ⟨W, ins, { q with wM := len, phase := .countParityBits }⟩) ∧
    (∀ p : PortIn W, Requests p → p.reqOp = 0#1 → p.reqLen = len → p.reqR = r → p.reqBits = bits →
      step ⟨W, p :: ins, g⟩ = exec (.encode len.toNat r.toNat bits.toNat) ⟨W, ins, g⟩)

/-- 45_sequencer.md R133, accept DECODE, with the consistency check in the words of 47_decode_command.md R163: the step of
a request with `req_op = 1`. -/
def Obligations.DecodeRequestIsAccepted : Prop :=
  ∀ (W : Nat) (ins : List (PortIn W)) (g : Regs W) (len r : BitVec (LW W)) (bits : BitVec W) (q : Regs W),
    g.phase = .idle → q = { g with qOp := 1#1, qLen := len, qR := r, qBits := bits } →
    (len.toNat = 0 →
      exec (.decode len.toNat r.toNat bits.toNat) ⟨W, ins, g⟩ = .next ⟨W, ins, failed .empty q⟩) ∧
    (len.toNat ≠ 0 → W < len.toNat →
      exec (.decode len.toNat r.toNat bits.toNat) ⟨W, ins, g⟩ = .next ⟨W, ins, failed .capacity q⟩) ∧
    (len.toNat ≠ 0 → len.toNat ≤ W → bitAbove len.toNat bits →
      exec (.decode len.toNat r.toNat bits.toNat) ⟨W, ins, g⟩ = .next ⟨W, ins, failed .malformed q⟩) ∧
    (len.toNat ≠ 0 → len.toNat ≤ W → ¬ bitAbove len.toNat bits →
      (¬ ∃ m, 1 ≤ m ∧ m + r.toNat = len.toNat ∧ calcR m = .ok r.toNat) →
      exec (.decode len.toNat r.toNat bits.toNat) ⟨W, ins, g⟩ = .next ⟨W, ins, failed .rMismatch q⟩) ∧
    (len.toNat ≠ 0 → len.toNat ≤ W → ¬ bitAbove len.toNat bits →
      (∃ m, 1 ≤ m ∧ m + r.toNat = len.toNat ∧ calcR m = .ok r.toNat) →
      exec (.decode len.toNat r.toNat bits.toNat) ⟨W, ins, g⟩ =
        .next ⟨W, ins, { q with wN := len, wR := r, phase := .computeSyndrome }⟩) ∧
    (∀ p : PortIn W, Requests p → p.reqOp = 1#1 → p.reqLen = len → p.reqR = r → p.reqBits = bits →
      step ⟨W, p :: ins, g⟩ = exec (.decode len.toNat r.toNat bits.toNat) ⟨W, ins, g⟩)

/-- 45_sequencer.md R134, CountParityBits: with the least `r` that satisfies the inequality of
40_redundant_bit_counter.md R80, a sum above `W` fails with CAPACITY and stores nothing; else `w_r` and `w_n` hold `r`
and `m + r` exactly, untruncated. A length of 0, if it is ever reached, fails with EMPTY (R82, R140). -/
def Obligations.CalcrStepCountsParityBits : Prop :=
  ∀ (W : Nat) (ins : List (PortIn W)) (g : Regs W), g.phase = .countParityBits →
    (g.wM.toNat = 0 → exec .calcr ⟨W, ins, g⟩ = .next ⟨W, ins, failed .empty g⟩) ∧
    (∀ r, 1 ≤ g.wM.toNat → g.wM.toNat + r + 1 ≤ 2 ^ r → (∀ r', r' < r → 2 ^ r' < g.wM.toNat + r' + 1) →
      (W < g.wM.toNat + r → exec .calcr ⟨W, ins, g⟩ = .next ⟨W, ins, failed .capacity g⟩) ∧
      (g.wM.toNat + r ≤ W → ∃ a b : BitVec (LW W), a.toNat = r ∧ b.toNat = g.wM.toNat + r ∧
        exec .calcr ⟨W, ins, g⟩ = .next ⟨W, ins, { g with wR := a, wN := b, phase := .interleave }⟩)) ∧
    (∀ p : PortIn W, p.rst = false → step ⟨W, p :: ins, g⟩ = exec .calcr ⟨W, ins, g⟩)

/-- 45_sequencer.md R135, Interleave, on the registers CountParityBits leaves: `w_seq` receives 0 at every power of two
and, at every other position `p` of `1..n`, the data bit numbered `p - bitlength(p)` from the right
(20_memory.md R35); bits above `n` are 0. Nothing else changes but the phase. -/
def Obligations.InterleaveStepPlacesData : Prop :=
  ∀ (W : Nat) (ins : List (PortIn W)) (g : Regs W), g.phase = .interleave → CountedInv g →
    ∃ v : BitVec W,
      exec .interleave ⟨W, ins, g⟩ = .next ⟨W, ins, { g with wSeq := v, phase := .computeParity }⟩ ∧
      (∀ p, 1 ≤ p → p ≤ g.wN.toNat →
        v.getLsbD (p - 1) = if ispow2 p then false else g.qBits.getLsbD (p - bitlength p - 1)) ∧
      (∀ p, g.wN.toNat < p → v.getLsbD (p - 1) = false) ∧
      (∀ p : PortIn W, p.rst = false → step ⟨W, p :: ins, g⟩ = exec .interleave ⟨W, ins, g⟩)

/-- 45_sequencer.md R136, ComputeParity, for any sequence of a length within `W`: each parity position receives the XOR
over its coverage set as it stood, every other position of the word is unchanged, bits above `n` are 0, the trace
registers are those of the sequence, and the response is OK. -/
def Obligations.ParityStepWritesCodeword : Prop :=
  ∀ (W : Nat) (ins : List (PortIn W)) (g : Regs W), g.phase = .computeParity → g.wN.toNat ≤ W →
    g.wR.toNat = bitlength g.wN.toNat →
    ∃ g' : Regs W, exec .parity ⟨W, ins, g⟩ = .next ⟨W, ins, g'⟩ ∧
      g' = { g with
        wSeq := g'.wSeq, tCov := g'.tCov, tObs := g'.tObs, tVal := g'.tVal
        stStatus := .ok, stCause := none, stCorr := false, phase := .encoded } ∧
      (∀ i, i < g.wR.toNat → g'.wSeq.getLsbD (2 ^ i - 1) = coveredXor g.wN.toNat i g.wSeq) ∧
      (∀ p, 1 ≤ p → p ≤ g.wN.toNat → ispow2 p = false → g'.wSeq.getLsbD (p - 1) = g.wSeq.getLsbD (p - 1)) ∧
      (∀ p, g.wN.toNat < p → g'.wSeq.getLsbD (p - 1) = false) ∧
      tracesWord g.wN.toNat g.wR.toNat g.wSeq g' ∧
      (∀ p : PortIn W, p.rst = false → step ⟨W, p :: ins, g⟩ = exec .parity ⟨W, ins, g⟩)

/-- 45_sequencer.md R137, ComputeSyndrome: `w_pos` receives the number whose binary digits are the syndrome bits,
`w_out` the received word, the trace registers its trace, and the three exits follow 43_syndrome_decoder.md R114. -/
def Obligations.SyndromeStepTakesItsExit : Prop :=
  ∀ (W : Nat) (ins : List (PortIn W)) (g : Regs W), g.phase = .computeSyndrome → g.wN = g.qLen →
    g.wN.toNat ≤ W → g.wR.toNat = bitlength g.wN.toNat →
    ∃ g' : Regs W, exec .syndrome ⟨W, ins, g⟩ = .next ⟨W, ins, g'⟩ ∧
      (∀ i, g'.wPos.toNat.testBit i = (decide (i < g.wR.toNat) && coveredXor g.wN.toNat i g.qBits)) ∧
      tracesWord g.wN.toNat g.wR.toNat g.qBits g' ∧
      (g'.wPos.toNat = 0 → g' = { g with
        wPos := g'.wPos, wOut := g.qBits, tCov := g'.tCov, tObs := g'.tObs, tVal := g'.tVal
        stStatus := .ok, stCause := none, stCorr := false, phase := .noError }) ∧
      (1 ≤ g'.wPos.toNat → g'.wPos.toNat ≤ g.wN.toNat → g' = { g with
        wPos := g'.wPos, wOut := g.qBits, tCov := g'.tCov, tObs := g'.tObs, tVal := g'.tVal
        phase := .singleBitError }) ∧
      (g.wN.toNat < g'.wPos.toNat → g' = { g with
        wPos := g'.wPos, wOut := g.qBits, tCov := g'.tCov, tObs := g'.tObs, tVal := g'.tVal
        stStatus := .uncorrectableError, stCause := none, stCorr := false, phase := .uncorrectableError }) ∧
      (∀ p : PortIn W, p.rst = false → step ⟨W, p :: ins, g⟩ = exec .syndrome ⟨W, ins, g⟩)

/-- 45_sequencer.md R138, SingleBitError: `w_out` receives the latched word with the one bit at `w_pos` inverted and
`q_bits` is not modified; a position of 0 or beyond the word, if ever reached, fails with BAD_POSITION
(44_corrector.md R121). -/
def Obligations.CorrectStepInvertsOneBit : Prop :=
  ∀ (W : Nat) (ins : List (PortIn W)) (g : Regs W), g.phase = .singleBitError →
    (1 ≤ g.wPos.toNat → g.wPos.toNat ≤ g.qLen.toNat → OperandValid g →
      exec .correct ⟨W, ins, g⟩ = .next ⟨W, ins, { g with
        wOut := g.qBits ^^^ BitVec.twoPow W (g.wPos.toNat - 1)
        stStatus := .ok, stCause := none, stCorr := true, phase := .corrected }⟩) ∧
    (g.wPos.toNat = 0 ∨ g.qLen.toNat < g.wPos.toNat →
      exec .correct ⟨W, ins, g⟩ = .next ⟨W, ins, failed .badPosition g⟩) ∧
    (∀ p : PortIn W, p.rst = false → step ⟨W, p :: ins, g⟩ = exec .correct ⟨W, ins, g⟩)

/-- An operation outside its phase is not enabled and changes nothing (the model's reading of 45_sequencer.md R131,
R144, notes/assumptions/9.md). -/
def Obligations.OperationOutsideItsPhaseDoesNothing : Prop :=
  ∀ (s : State) (len r bits : Nat),
    (s.regs.phase ≠ .idle → exec (.encode len r bits) s = .next s ∧ exec (.decode len r bits) s = .next s) ∧
    (s.regs.phase ≠ .countParityBits → exec .calcr s = .next s) ∧
    (s.regs.phase ≠ .interleave → exec .interleave s = .next s) ∧
    (s.regs.phase ≠ .computeParity → exec .parity s = .next s) ∧
    (s.regs.phase ≠ .computeSyndrome → exec .syndrome s = .next s) ∧
    (s.regs.phase ≠ .singleBitError → exec .correct s = .next s)

/-- THE FRAME of all seven operations in any state: the width and the pins stay, and each register is written only by
the operations that 10_state.md R15 to R18 name for it ("written by"); the result fields only on entry into a terminal
phase. -/
def Obligations.RegistersWrittenOnlyByTheirSteps : Prop :=
  ∀ (i : Instr) (W : Nat) (ins : List (PortIn W)) (g : Regs W) (t : State), exec i ⟨W, ins, g⟩ = .next t →
    ∃ g' : Regs W, t = ⟨W, ins, g'⟩ ∧
      ((∀ l r b, i ≠ .encode l r b ∧ i ≠ .decode l r b) →
        g'.qOp = g.qOp ∧ g'.qLen = g.qLen ∧ g'.qR = g.qR ∧ g'.qBits = g.qBits) ∧
      ((∀ l r b, i ≠ .encode l r b) → g'.wM = g.wM) ∧
      (i ≠ .calcr → (∀ l r b, i ≠ .decode l r b) → g'.wR = g.wR ∧ g'.wN = g.wN) ∧
      (i ≠ .interleave → i ≠ .parity → g'.wSeq = g.wSeq) ∧
      (i ≠ .syndrome → g'.wPos = g.wPos) ∧
      (i ≠ .syndrome → i ≠ .correct → g'.wOut = g.wOut) ∧
      (i ≠ .parity → i ≠ .syndrome → g'.tCov = g.tCov ∧ g'.tObs = g.tObs ∧ g'.tVal = g.tVal) ∧
      (isTerminal g'.phase = false →
        g'.stStatus = g.stStatus ∧ g'.stCause = g.stCause ∧ g'.stCorr = g.stCorr)

/-- 60_exceptions.md R176, failure entry: an operation that newly enters InvalidInput writes the three result fields and
the phase and nothing else; an accept step writes the latches too, with the request's own fields. -/
def Obligations.FailureEntryWritesNothingElse : Prop :=
  ∀ (W : Nat) (ins : List (PortIn W)) (g g' : Regs W), g.phase ≠ .invalidInput → g'.phase = .invalidInput →
    (∀ i : Instr, i ∈ [.calcr, .interleave, .parity, .syndrome, .correct] →
      exec i ⟨W, ins, g⟩ = .next ⟨W, ins, g'⟩ → ∃ c, g' = failed c g) ∧
    (∀ len r bits : Nat, exec (.encode len r bits) ⟨W, ins, g⟩ = .next ⟨W, ins, g'⟩ →
      ∃ c, g' = failed c { g with
        qOp := 0#1, qLen := BitVec.ofNat _ len, qR := BitVec.ofNat _ r, qBits := BitVec.ofNat _ bits }) ∧
    (∀ len r bits : Nat, exec (.decode len r bits) ⟨W, ins, g⟩ = .next ⟨W, ins, g'⟩ →
      ∃ c, g' = failed c { g with
        qOp := 1#1, qLen := BitVec.ofNat _ len, qR := BitVec.ofNat _ r, qBits := BitVec.ofNat _ bits })

/-! ### The machine as a whole -/

/-- The reset state meets the invariant, is in Idle, ready for a request and presents no response. -/
def Obligations.ResetStateIsReady : Prop :=
  Inv State.reset ∧ State.reset.regs.phase = .idle ∧ reqReady State.reset.regs = true ∧
    response State.reset.regs = none

/-- Every step keeps the invariant: in each phase the registers hold what the next step reads, and a presented response
is the atomic answer to the latched request. -/
def Obligations.InvariantKeptByEveryStep : Prop :=
  ∀ s t : State, Inv s → step s = .next t → Inv t

/-- 45_sequencer.md R143: from Idle in ANY register state, a presented request is answered, with whatever is on the
request port meanwhile, by exactly the atomic function of its own fields. -/
def Obligations.StepsComputeAtomicAnswer : Prop :=
  ∀ (W : Nat) (p : PortIn W) (busy : List (PortIn W)) (g : Regs W), 3 ≤ W → g.phase = .idle → Requests p →
    (∀ b ∈ busy, Undisturbing b) →
    ∃ g' : Regs W, Host.Core.run core 4 ⟨W, p :: busy, g⟩ = .next (⟨W, busy.drop 3, g'⟩ : State) ∧
      response g' = some (answer p.reqOp p.reqLen p.reqR p.reqBits)

/-- 45_sequencer.md R145: every working phase has an enabled step, which leaves it, and an accepted request reaches a
terminal phase after at most four steps for ENCODE and three for DECODE. -/
def Obligations.AcceptedRequestReachesTerminalPhase : Prop :=
  (∀ s : State, isWorking s.regs.phase = true → (pins s).rst = false →
    ∃ t, step s = .next t ∧ t.regs.phase ≠ s.regs.phase) ∧
  (∀ (W : Nat) (p : PortIn W) (busy : List (PortIn W)) (g : Regs W), 3 ≤ W → g.phase = .idle → Requests p →
    (∀ b ∈ busy, Undisturbing b) →
    ∃ k ins' g', k ≤ (if p.reqOp = 0#1 then 4 else 3) ∧
      Host.Core.run core k ⟨W, p :: busy, g⟩ = .next (⟨W, ins', g'⟩ : State) ∧ isTerminal g'.phase = true)

/-- 10_state.md R10, 45_sequencer.md R142: nothing left in any register by earlier commands, and nothing on the request
port after acceptance, changes the phases or the response of a command, at any step. -/
def Obligations.EarlierCommandsLeaveNoTrace : Prop :=
  ∀ (W k : Nat) (p : PortIn W) (busy busy' : List (PortIn W)) (g h : Regs W), 3 ≤ W →
    g.phase = .idle → h.phase = .idle → Requests p →
    (∀ b ∈ busy, Undisturbing b) → (∀ b ∈ busy', Undisturbing b) →
    ∃ (ins ins' : List (PortIn W)) (g' h' : Regs W),
      Host.Core.run core k ⟨W, p :: busy, g⟩ = .next (⟨W, ins, g'⟩ : State) ∧
      Host.Core.run core k ⟨W, p :: busy', h⟩ = .next (⟨W, ins', h'⟩ : State) ∧
      g'.phase = h'.phase ∧ response g' = response h'

/-- 45_sequencer.md R139, 20_memory.md R33: in every state that meets the invariant, what the response port shows in each
terminal phase, field by field. ENCODE shows the codeword of the latched data with its length, `r` and trace; DECODE
shows the latched length and `r`, the syndrome's position and trace, and the received or the corrected word. -/
def Obligations.ResponseFieldsFollowPhase : Prop :=
  ∀ (W : Nat) (ins : List (PortIn W)) (g : Regs W), Inv ⟨W, ins, g⟩ → rspValid g = true →
    (g.phase = .invalidInput → ∃ c, c ≠ .badPosition ∧ response g = some (.invalidInput (some c))) ∧
    (g.phase ≠ .invalidInput → ∃ f : ResponseWord W, response g = some (.word f) ∧
      f.cause = none ∧ 3 ≤ f.len.toNat ∧ f.len.toNat ≤ W ∧ f.r.toNat = bitlength f.len.toNat ∧
      ¬ bitAbove f.len.toNat f.bits ∧
      (g.phase = .encoded → ∃ e, encodeAbstract (operand g) = .ok e ∧
        f.status = .ok ∧ f.len.toNat = e.codeword.length ∧ f.r.toNat = e.r ∧ f.bits = toBus W e.codeword ∧
        f.errpos = 0 ∧ f.corrected = false ∧ showsTrace e.trace f) ∧
      (g.phase ≠ .encoded → f.len = g.qLen ∧ f.r = g.qR ∧
        f.errpos.toNat = (syndrome (operand g) g.qR.toNat).1 ∧
        showsTrace (syndrome (operand g) g.qR.toNat).2 f) ∧
      (g.phase = .noError → f.status = .ok ∧ f.errpos = 0 ∧ f.corrected = false ∧ f.bits = g.qBits) ∧
      (g.phase = .corrected → f.status = .ok ∧ 1 ≤ f.errpos.toNat ∧ f.errpos.toNat ≤ f.len.toNat ∧
        f.corrected = true ∧ f.bits = g.qBits ^^^ BitVec.twoPow W (f.errpos.toNat - 1)) ∧
      (g.phase = .uncorrectableError → f.status = .uncorrectableError ∧ f.len.toNat < f.errpos.toNat ∧
        f.corrected = false ∧ f.bits = g.qBits))

/-- 60_exceptions.md R175: the first condition that holds, in the order EMPTY, CAPACITY (length), MALFORMED, then
R_MISMATCH (DECODE) or CAPACITY (codeword, ENCODE), then UncorrectableError (DECODE), decides the outcome; when none
holds the status is OK. A text that fails as EMPTY has no MALFORMED character. -/
def Obligations.FirstFailingCheckDecides : Prop :=
  ∀ (W : Nat) (op : BitVec 1) (len r : BitVec (LW W)) (bits : BitVec W), 3 ≤ W →
    (len.toNat = 0 → answer op len r bits = .invalidInput (some .empty)) ∧
    (len.toNat ≠ 0 → W < len.toNat → answer op len r bits = .invalidInput (some .capacity)) ∧
    (len.toNat ≠ 0 → len.toNat ≤ W → bitAbove len.toNat bits →
      answer op len r bits = .invalidInput (some .malformed)) ∧
    (∀ T : Text, parse T = .error .empty → ∀ c ∈ T, c = '0' ∨ c = '1') ∧
    (len.toNat ≠ 0 → len.toNat ≤ W → ¬ bitAbove len.toNat bits →
      (op = 1#1 → rconsistent len.toNat r.toNat = false →
        answer op len r bits = .invalidInput (some .rMismatch)) ∧
      (op = 0#1 → ∀ c, calcR len.toNat = .ok c → W < len.toNat + c →
        answer op len r bits = .invalidInput (some .capacity)) ∧
      (op = 1#1 → rconsistent len.toNat r.toNat = true →
        len.toNat < (syndrome (ofBus len.toNat bits) r.toNat).1 →
        rspStatus (answer op len r bits) = 2#2 ∧ rspCause (answer op len r bits) = 0#3) ∧
      (op = 1#1 → rconsistent len.toNat r.toNat = true →
        (syndrome (ofBus len.toNat bits) r.toNat).1 ≤ len.toNat →
        rspStatus (answer op len r bits) = 0#2 ∧ rspCause (answer op len r bits) = 0#3) ∧
      (op = 0#1 → ∀ c, calcR len.toNat = .ok c → len.toNat + c ≤ W →
        rspStatus (answer op len r bits) = 0#2 ∧ rspCause (answer op len r bits) = 0#3))

/-- 20_memory.md R42: instances are independent; a step of one leaves every other as it is and is its own step. That the
product is a list of states of which one steps at a time is the model's reading (notes/assumptions/12.md). -/
def Obligations.InstancesDoNotInterfere : Prop :=
  ∀ (ss ss' : List State) (k : Nat), stepInstance k ss = .next ss' →
    ss'.length = ss.length ∧ (∀ j, j ≠ k → ss'[j]? = ss[j]?) ∧
      (∀ s, ss[k]? = some s → ∃ t, step s = .next t ∧ ss'[k]? = some t)

/-! ### The component operations at the abstract level -/

/-- 40_redundant_bit_counter.md R80, R82: CALCR fails for 0 and otherwise returns the smallest `r` with
`2^r >= m + r + 1`. -/
def Obligations.CalcrReturnsLeastCount : Prop :=
  calcR 0 = .error .empty ∧
    ∀ m, 1 ≤ m → ∃ r, calcR m = .ok r ∧ m + r + 1 ≤ 2 ^ r ∧ ∀ r', r' < r → 2 ^ r' < m + r' + 1

/-- 40_redundant_bit_counter.md R84, items 1 to 5. -/
def Obligations.ParityCountProperties : Prop :=
  (∀ m r, calcR m = .ok r →
    2 ≤ r ∧ 2 ^ (r - 1) < m + r ∧ m + r < 2 ^ r ∧ r = bitlength (m + r) ∧
    (∀ p, 1 ≤ p → p ≤ m + r → (ispow2 p = true ↔ ∃ i, i < r ∧ p = 2 ^ i)) ∧ ispow2 (m + r) = false ∧
    (∀ i, i < r → 2 ^ i ≤ m + r)) ∧
  (∀ m r r', m + r + 1 ≤ 2 ^ r → r ≤ r' → 2 ^ r - r - 1 ≤ 2 ^ r' - r' - 1 ∧ m + r' + 1 ≤ 2 ^ r') ∧
  (∀ m r m' r', calcR m = .ok r → calcR m' = .ok r' → m ≤ m' → r ≤ r' ∧ (m < m' → m + r < m' + r')) ∧
  (∀ m r, 1 ≤ m → 1 ≤ r →
    (calcR m = .ok r ↔ 2 ^ (r - 1) - (r - 1) - 1 < m ∧ m ≤ 2 ^ r - r - 1)) ∧
  (∀ n, (∃ m r, calcR m = .ok r ∧ n = m + r) ↔ 3 ≤ n ∧ ispow2 n = false)

/-- 40_redundant_bit_counter.md R83: the bound that holds for every length, and when the document's own bound holds. -/
def Obligations.ParityCountBounds : Prop :=
  ∀ m r, calcR m = .ok r → r ≤ bitlength m + 1 ∧ (r ≤ m ↔ 3 ≤ m)

/-- 47_decode_command.md R163: `r` is consistent with `n` exactly when some `m >= 1` has `m + r = n` and
`CALCR(m) = r`; equivalently `n >= 3` is no power of two and `r = bitlength(n)`. -/
def Obligations.ConsistentCountIsBitlength : Prop :=
  ∀ n r, (rconsistent n r = true ↔ ∃ m, 1 ≤ m ∧ m + r = n ∧ calcR m = .ok r) ∧
    (rconsistent n r = true ↔ 3 ≤ n ∧ ispow2 n = false ∧ r = bitlength n)

/-- 41_interleaver.md R90, R93 with 20_memory.md R35: the result has `m + r` bits, 0 at every power of two, and the `k`-th
data bit from the right at the `k`-th position that is no power of two, the one with `p - bitlength(p) = k`. -/
def Obligations.InterleavePlacesDataBits : Prop :=
  ∀ (D : BitString) (r : Nat), calcR D.length = .ok r →
    ∃ S, interleave D r = .ok S ∧ S.length = D.length + r ∧
      (∀ p, 1 ≤ p → p ≤ S.length → ispow2 p = true → bit S p = false) ∧
      (∀ p, 1 ≤ p → p ≤ S.length → ispow2 p = false →
        1 ≤ p - bitlength p ∧ p - bitlength p ≤ D.length ∧ bit S p = bit D (p - bitlength p)) ∧
      (∀ k, 1 ≤ k → k ≤ D.length → ∃ p, (dataPositions S.length)[k - 1]? = some p ∧ p - bitlength p = k) ∧
      (dataPositions S.length).map (bit S) = D

/-- 41_interleaver.md R92: the document's formulation on character strings gives the text of the same result. -/
def Obligations.InterleaveTextAgrees : Prop :=
  ∀ (D : BitString) (r : Nat) (S : BitString), interleave D r = .ok S →
    interleaveText (text D) r = .ok (text S)

/-- 41_interleaver.md R94: another `r` than `CALCR(m)` is refused, by the text formulation too (which cause is given, and
that the text formulation refuses as INTERLEAVE does, are the model's choice, notes/assumptions/6.md). -/
def Obligations.InterleaveRefusesOtherCounts : Prop :=
  (∀ (D : BitString) (r : Nat), (∃ c, interleave D r = .error c ∧ (c = .empty ∨ c = .rMismatch)) ↔
    calcR D.length ≠ .ok r) ∧
  (∀ (T : Text) (r : Nat), (∃ c, interleaveText T r = .error c ∧ (c = .empty ∨ c = .rMismatch)) ↔
    calcR T.length ≠ .ok r)

/-- 42_parity_computer.md R101: what a coverage set is, with its three consequences for a codeword length. -/
def Obligations.CoverageSets : Prop :=
  ∀ n i, (∀ j, j ∈ cov n i ↔ 1 ≤ j ∧ j ≤ n ∧ j.testBit i = true) ∧ (cov n i).Pairwise (· < ·) ∧
    (2 ^ i ≤ n → 2 ^ i ∈ cov n i) ∧ (∀ k, k ≠ i → 2 ^ k ∉ cov n i) ∧
    (bitlength n ≤ i → cov n i = []) ∧
    (∀ p, 1 ≤ p → p ≤ n → ∃ k, k < bitlength n ∧ p ∈ cov n k)

/-- 42_parity_computer.md R105: the parity indices may be taken in any order, or all at once from the sequence; codeword
and trace entries are the same. With a placeholder at 0 the parity value is the XOR of the other covered bits. -/
def Obligations.ParityOrderDoesNotMatter : Prop :=
  ∀ (S : BitString) (r : Nat) (order : List Nat), order.Perm (List.range r) →
    (parityFrom order S).1 = (parity S r).1 ∧ (parityFrom order S).2.Perm (parity S r).2 ∧
      (parity S r).2 = (List.range r).map (traceEntry S) ∧
      (∀ i, bit S (2 ^ i) = false →
        (traceEntry S i).value = xorAll (((cov S.length i).filter fun j => j != 2 ^ i).map (bit S)))

/-- 42_parity_computer.md R107: the codeword has even parity over every coverage set, holds the data bits where the
interleaver put them, and is the only word of its length that does both. -/
def Obligations.CodewordIsTheEvenWord : Prop :=
  ∀ (D : BitString) (r : Nat) (S : BitString), interleave D r = .ok S →
    (parity S r).1.length = S.length ∧
    (∀ i, i < r → xorAll (observed (parity S r).1 i) = false) ∧
    (∀ p, 1 ≤ p → p ≤ S.length → ispow2 p = false → bit (parity S r).1 p = bit S p) ∧
    (∀ C : BitString, C.length = S.length → (∀ i, i < r → xorAll (observed C i) = false) →
      (∀ p, 1 ≤ p → p ≤ S.length → ispow2 p = false → bit C p = bit S p) → C = (parity S r).1)

/-- 42_parity_computer.md R106, 30_encoding.md R60: the encoder's trace has one entry per parity index in increasing
order, observed before the write-back, so the parity position itself reads 0 and the value is the codeword's bit there. -/
def Obligations.EncoderTraceObservesPlaceholders : Prop :=
  ∀ (D : BitString) (e : EncodeOk), encodeAbstract D = .ok e →
    e.trace.length = e.r ∧ ∀ i (h : i < e.trace.length),
      e.trace[i].index = i ∧ e.trace[i].position = 2 ^ i ∧
      e.trace[i].cover = cov e.codeword.length i ∧
      e.trace[i].observed =
        (cov e.codeword.length i).map (fun j => if j = 2 ^ i then false else bit e.codeword j) ∧
      e.trace[i].value = xorAll e.trace[i].observed ∧ e.trace[i].value = bit e.codeword (2 ^ i)

/-- 43_syndrome_decoder.md R112: the ErrorPosition is the sum of `s_i * 2^i`, an integer in `0 .. 2^r - 1` whose bit `i`
is the XOR of the received bits over the coverage set of `i`. -/
def Obligations.ErrorPositionIsSyndromeNumber : Prop :=
  ∀ (X : BitString) (r : Nat),
    (syndrome X r).1 = ((List.range r).map fun i => (xorAll (observed X i)).toNat * 2 ^ i).sum ∧
      (syndrome X r).1 < 2 ^ r ∧ ∀ i, i < r → (syndrome X r).1.testBit i = xorAll (observed X i)

/-- 43_syndrome_decoder.md R116: flipping a codeword at any positions of the word gives the XOR of their numbers as the
ErrorPosition: 0 for none, the position itself for one. -/
def Obligations.SyndromeIsXorOfFlips : Prop :=
  ∀ (C : BitString) (r : Nat) (E : List Nat), IsCodeword C r → (∀ p ∈ E, 1 ≤ p ∧ p ≤ C.length) →
    (syndrome (flipAll C E) r).1 = E.foldl (fun a p => a ^^^ p) 0

/-- 43_syndrome_decoder.md R117: two different flips are never reported as no error; they are mis-corrected at a third
position inside the word, or uncorrectable when `p ^ q` lies beyond it, which a perfect length excludes. -/
def Obligations.TwoFlipsAreNotCorrected : Prop :=
  ∀ (C : BitString) (r p q : Nat), IsCodeword C r → 1 ≤ p → p ≤ C.length → 1 ≤ q → q ≤ C.length → p ≠ q →
    (p ^^^ q ≠ 0 ∧ p ^^^ q ≠ p ∧ p ^^^ q ≠ q) ∧
    (p ^^^ q ≤ C.length → ∃ d, decodeAbstract (flipAll C [p, q]) r = .ok d ∧ d.errorPosition = p ^^^ q ∧
      d.corrected = some (flipAll C [p, q, p ^^^ q]) ∧ d.corrected ≠ some C) ∧
    (C.length < p ^^^ q →
      ∃ trace, decodeAbstract (flipAll C [p, q]) r = .error (.uncorrectableError (p ^^^ q) trace)) ∧
    (C.length = 2 ^ r - 1 → p ^^^ q ≤ C.length)

/-- The headline of the code (46_encode_command.md R154, 47_decode_command.md R165): decoding an unmodified codeword
reports no error, and decoding it with any one bit inverted, data or parity, names that position and restores it. -/
def Obligations.SingleErrorIsCorrected : Prop :=
  ∀ (D : BitString) (e : EncodeOk), encodeAbstract D = .ok e →
    (∃ t, decodeAbstract e.codeword e.r = .ok ⟨0, t, none⟩) ∧
    ∀ p, 1 ≤ p → p ≤ e.codeword.length →
      ∃ t, decodeAbstract (flipAt e.codeword p) e.r = .ok ⟨p, t, some e.codeword⟩

/-- 70_reset_and_hazards.md R205: DECODE of any word of a codeword's length with another `r` than ENCODE returned for that
length is rejected with R_MISMATCH. -/
def Obligations.MismatchedCountIsRejected : Prop :=
  ∀ (D : BitString) (e : EncodeOk) (X : BitString) (r : Nat), encodeAbstract D = .ok e →
    X.length = e.codeword.length → r ≠ e.r → decodeAbstract X r = .error (.invalidInput .rMismatch)

/-- 47_decode_command.md R165: a corrected word decodes with no error under the same `r`. -/
def Obligations.CorrectedWordHasNoError : Prop :=
  ∀ (X C : BitString) (r pos : Nat) (t : List TraceEntry), decodeAbstract X r = .ok ⟨pos, t, some C⟩ →
    ∃ t', decodeAbstract C r = .ok ⟨0, t', none⟩

/-- 47_decode_command.md R166: a corrected word is present exactly when the error position is in `1..n`; it is absent
when the position is 0, and an uncorrectable word yields no result. -/
def Obligations.CorrectedPresentExactlyInsideWord : Prop :=
  ∀ (X : BitString) (r : Nat),
    (∀ d, decodeAbstract X r = .ok d →
      (d.corrected.isSome = true ↔ 1 ≤ d.errorPosition ∧ d.errorPosition ≤ X.length) ∧
      (d.errorPosition = 0 → d.corrected = none) ∧ d.errorPosition = (syndrome X r).1) ∧
    (rconsistent X.length r = true → X.length < (syndrome X r).1 → ∀ d, decodeAbstract X r ≠ .ok d)

/-- 60_exceptions.md R173: DECODE ends in UncorrectableError exactly for consistent operands whose ErrorPosition exceeds
`n`, which needs `n < 2^r - 1`; ENCODE never does. -/
def Obligations.UncorrectableExactlyBeyondWord : Prop :=
  (∀ (X : BitString) (r : Nat), (∃ pos t, decodeAbstract X r = .error (.uncorrectableError pos t)) ↔
    rconsistent X.length r = true ∧ X.length < (syndrome X r).1) ∧
  (∀ (X : BitString) (r : Nat), X.length < (syndrome X r).1 → X.length < 2 ^ r - 1) ∧
  (∀ (D : BitString) (pos : Nat) (t : List TraceEntry), encodeAbstract D ≠ .error (.uncorrectableError pos t))

/-- 44_corrector.md R121, R122, R123: CORRECT fails for 0 or a position beyond the word; else the result has the same
length and every bit but the one at `pos`, which is inverted. Correcting twice gives the word back (R125). -/
def Obligations.CorrectFlipsExactlyOnePosition : Prop :=
  ∀ (X : BitString) (pos : Nat),
    (pos = 0 ∨ X.length < pos → correct X pos = .error .badPosition) ∧
    (1 ≤ pos → pos ≤ X.length → ∃ C, correct X pos = .ok C ∧ C.length = X.length ∧
      (∀ p, 1 ≤ p → p ≤ X.length → bit C p = (bit X p ^^ decide (p = pos))) ∧ correct C pos = .ok X)

/-- 46_encode_command.md R154: two codewords for different data of one length differ in at least three positions. -/
def Obligations.CodewordsDifferInThreePositions : Prop :=
  ∀ (D D' : BitString) (e e' : EncodeOk), D.length = D'.length → D ≠ D' →
    encodeAbstract D = .ok e → encodeAbstract D' = .ok e' → 3 ≤ distance e.codeword e'.codeword

/-- 46_encode_command.md R153 with the caller's EXTRACT of 30_encoding.md R66: every nonempty data string is encoded, the
codeword has `m + CALCR(m)` bits, and reading its data positions gives the data back. -/
def Obligations.ExtractInvertsEncode : Prop :=
  ∀ D : BitString, D ≠ [] → ∃ e, encodeAbstract D = .ok e ∧ calcR D.length = .ok e.r ∧
    e.codeword.length = D.length + e.r ∧ extract e.codeword = D

/-! ### Text and bus forms -/

/-- 30_encoding.md R51, 20_memory.md R32: parsing inverts the text form and is inverted by it; the empty text and any
other character fail, and the character at index `k` from the left is position `n - k`. -/
def Obligations.TextFormRoundTrips : Prop :=
  (∀ S : BitString, S ≠ [] → parse (text S) = .ok S) ∧
  (∀ (T : Text) (S : BitString), parse T = .ok S → text S = T) ∧
  (∀ T : Text, (parse T = .error .empty ↔ T = []) ∧
    (parse T = .error .malformed ↔ ∃ c ∈ T, c ≠ '0' ∧ c ≠ '1')) ∧
  (∀ (T : Text) (S : BitString), parse T = .ok S → ∀ k, k < T.length →
    bit S (T.length - k) = (T[k]? == some '1'))

/-- The text level agrees with the abstract level (46_encode_command.md R151, R152, 47_decode_command.md R161, R162) on
every text: the empty text fails with EMPTY, one with another character than `0` and `1` with MALFORMED, and every other
text is that of a nonempty bit string, on which the command is the abstract one, its words delivered as text. -/
def Obligations.TextCommandsAgree : Prop :=
  (∀ r : Nat, encodeText [] = .error (.invalidInput .empty) ∧ decodeText [] r = .error (.invalidInput .empty)) ∧
  (∀ (T : Text) (r : Nat), (∃ c ∈ T, c ≠ '0' ∧ c ≠ '1') →
    encodeText T = .error (.invalidInput .malformed) ∧ decodeText T r = .error (.invalidInput .malformed)) ∧
  (∀ T : Text, T ≠ [] → (∀ c ∈ T, c = '0' ∨ c = '1') → ∃ S : BitString, S ≠ [] ∧ text S = T) ∧
  (∀ (S : BitString) (r : Nat), S ≠ [] →
    (∀ e, encodeAbstract S = .ok e → encodeText (text S) = .ok (text e.codeword, e.r, e.trace)) ∧
    (∀ f, encodeAbstract S = .error f → encodeText (text S) = .error f) ∧
    (∀ d, decodeAbstract S r = .ok d →
      decodeText (text S) r = .ok (d.errorPosition, d.syndromeTrace, d.corrected.map text)) ∧
    (∀ f, decodeAbstract S r = .error f → decodeText (text S) r = .error f))

/-- 20_memory.md R33: a bit string of length `n <= W` on a `W`-bit bus has position `p` on bit `p - 1`, zeros above, the
value of its text as a numeral, and is read back whole; and a bus without stray bits is the bus form of what it
carries. -/
def Obligations.BusFormRoundTrips : Prop :=
  (∀ (W : Nat) (S : BitString), S.length ≤ W →
    (∀ p, 1 ≤ p → (toBus W S).getLsbD (p - 1) = bit S p) ∧ ¬ bitAbove S.length (toBus W S) ∧
      (toBus W S).toNat = val S ∧ ofBus S.length (toBus W S) = S) ∧
  (∀ (W n : Nat) (b : BitVec W), n ≤ W → ¬ bitAbove n b → toBus W (ofBus n b) = b)
end

