-- ==== Sys2Proof/Laws/Bits.lean ====
section
/-! SUPPORT. The laws of bits by Position, of the bus form, and of `xorAll`. -/

namespace Sys2Proof.Machine

@[simp] theorem bit_zero (S : BitString) : bit S 0 = false := rfl

@[simp] theorem bit_succ (S : BitString) (k : Nat) : bit S (k + 1) = S.getD k false := rfl

/-- A read beyond the word gives 0. -/
theorem bit_beyond (S : BitString) (p : Nat) (h : S.length < p) : bit S p = false := by
  cases p with
  | zero => rfl
  | succ k => exact List.getD_eq_default _ _ (by omega)

@[simp] theorem setbit_length (S : BitString) (p : Nat) (v : Bool) : (setbit S p v).length = S.length := by
  unfold setbit; split <;> simp

/-- Read after write, at the written position and elsewhere. -/
theorem bit_setbit (S : BitString) (p q : Nat) (v : Bool) :
    bit (setbit S p v) q = if q = p ∧ 1 ≤ p ∧ p ≤ S.length then v else bit S q := by
  cases p with
  | zero => simp [setbit]
  | succ p =>
    cases q with
    | zero => simp
    | succ q =>
      simp only [setbit, bit_succ, List.getD_eq_getElem?_getD, List.getElem?_set, Nat.add_one_ne_zero, if_false,
        Nat.add_one_sub_one, Nat.add_right_cancel_iff]
      by_cases h : q = p
      · subst h
        by_cases h' : q < S.length
        · simp [h', Nat.succ_le_of_lt h']
        · simp [h', show ¬ (q + 1 ≤ S.length) by omega]
      · simp [h, Ne.symm h]

/-- Words of one length with equal bits are equal. -/
theorem word_ext {S T : BitString} (hl : S.length = T.length)
    (h : ∀ p, 1 ≤ p → p ≤ S.length → bit S p = bit T p) : S = T := by
  apply List.ext_getElem hl
  intro k h1 h2
  have := h (k + 1) (by omega) (by omega)
  simpa [List.getD_eq_getElem?_getD, h1, h2] using this

@[simp] theorem xorAll_nil : xorAll [] = false := rfl

@[simp] theorem xorAll_cons (b : Bool) (bs : List Bool) : xorAll (b :: bs) = (b ^^ xorAll bs) := rfl

@[simp] theorem xorAll_append (as bs : List Bool) : xorAll (as ++ bs) = (xorAll as ^^ xorAll bs) := by
  induction as with
  | nil => simp
  | cons a as ih => simp [ih]

theorem xorAll_map_xor {α : Type} (l : List α) (f g : α → Bool) :
    xorAll (l.map fun a => f a ^^ g a) = (xorAll (l.map f) ^^ xorAll (l.map g)) := by
  induction l with
  | nil => rfl
  | cons a l ih => simp [ih]; cases f a <;> cases g a <;> simp

theorem xorAll_map_false {α : Type} (l : List α) : xorAll (l.map fun _ => false) = false := by
  induction l with
  | nil => rfl
  | cons a l ih => rw [List.map_cons, xorAll_cons, ih]; rfl

/-- The XOR of the indicator of one member of a list without repeats. -/
theorem xorAll_indicator (l : List Nat) (p : Nat) (hl : l.Nodup) :
    xorAll (l.map fun j => decide (j = p)) = decide (p ∈ l) := by
  induction l with
  | nil => rfl
  | cons a l ih =>
    have hnd := List.nodup_cons.mp hl
    rw [List.map_cons, xorAll_cons, ih hnd.2]
    by_cases h : a = p
    · subst h; simp [hnd.1]
    · have : p ≠ a := fun h' => h h'.symm
      simp [h, this]

/-- The numeral of a word has the word's bits. -/
theorem val_testBit (S : BitString) (k : Nat) : (val S).testBit k = S.getD k false := by
  induction S generalizing k with
  | nil => simp [val]
  | cons b S ih =>
    cases k with
    | zero =>
      simp only [val, Nat.testBit_zero]
      cases b <;> simp [Nat.add_mod]
    | succ k =>
      have : val (b :: S) / 2 = val S := by simp only [val]; cases b <;> simp; omega
      rw [Nat.testBit_succ, this, ih]; rfl

theorem val_lt (S : BitString) : val S < 2 ^ S.length := by
  induction S with
  | nil => simp [val]
  | cons b S ih =>
    simp only [val, List.length_cons, Nat.pow_succ]
    have : b.toNat ≤ 1 := Bool.toNat_le b
    omega

/-- Bus bit `p - 1` carries position `p`; bits above the word are 0 (20_memory.md R33). -/
theorem toBus_getLsbD (W : Nat) (S : BitString) (p : Nat) (h1 : 1 ≤ p) (h2 : p ≤ W) :
    (toBus W S).getLsbD (p - 1) = bit S p := by
  obtain ⟨k, rfl⟩ : ∃ k, p = k + 1 := ⟨p - 1, by omega⟩
  have : k < W := by omega
  rw [Nat.add_sub_cancel, toBus, BitVec.getLsbD_ofNat, val_testBit, bit_succ]
  simp [this]

@[simp] theorem ofBus_length {W : Nat} (n : Nat) (b : BitVec W) : (ofBus n b).length = n := by simp [ofBus]

theorem bit_ofBus {W : Nat} (n : Nat) (b : BitVec W) (p : Nat) (h1 : 1 ≤ p) (h2 : p ≤ n) :
    bit (ofBus n b) p = b.getLsbD (p - 1) := by
  obtain ⟨k, rfl⟩ : ∃ k, p = k + 1 := ⟨p - 1, by omega⟩
  have : k < n := by omega
  simp [ofBus, List.getD_eq_getElem?_getD, this]

/-- `strayBits` says that a 1 stands at or above the length. -/
theorem strayBits_iff {W : Nat} (n : Nat) (b : BitVec W) :
    strayBits n b = true ↔ ∃ k, n ≤ k ∧ k < W ∧ b.getLsbD k = true := by
  unfold strayBits
  rw [bne_iff_ne]
  constructor
  · intro h
    by_contra hc
    apply h
    apply BitVec.eq_of_getLsbD_eq
    intro i hi
    rw [BitVec.getLsbD_ushiftRight, show (0 : BitVec W) = 0#W from rfl, BitVec.getLsbD_zero]
    by_cases hk : n + i < W
    · by_contra hb
      exact hc ⟨n + i, by omega, hk, by simpa using hb⟩
    · exact BitVec.getLsbD_of_ge _ _ (by omega)
  · rintro ⟨k, h1, h2, h3⟩ h
    have := congrArg (fun v => v.getLsbD (k - n)) h
    rw [BitVec.getLsbD_ushiftRight, show n + (k - n) = k by omega, h3] at this
    simp at this

/-- What `operandFailure` lets through: a length in `1..W` and no stray bits. -/
theorem operandFailure_none_iff {W : Nat} (len : BitVec (LW W)) (bits : BitVec W) :
    operandFailure len bits = none ↔ 1 ≤ len.toNat ∧ len.toNat ≤ W ∧ strayBits len.toNat bits = false := by
  unfold operandFailure
  split
  · simp; omega
  · split
    · simp; omega
    · split
      · simp_all
      · simp_all; omega

end Sys2Proof.Machine
end

