-- ==== Sys2Proof/Laws/State.lean ====
section
/-! SUPPORT. One lemma per register per update, so that no proof unfolds an update. -/

namespace Sys2Proof.Machine

section

/-! `setPhase` -/

variable {W : Nat} (p : Phase) (g : Regs W)

@[simp] theorem setPhase_phase : (setPhase p g).phase = p := rfl
@[simp] theorem setPhase_qOp : (setPhase p g).qOp = g.qOp := rfl
@[simp] theorem setPhase_qLen : (setPhase p g).qLen = g.qLen := rfl
@[simp] theorem setPhase_qR : (setPhase p g).qR = g.qR := rfl
@[simp] theorem setPhase_qBits : (setPhase p g).qBits = g.qBits := rfl
@[simp] theorem setPhase_wM : (setPhase p g).wM = g.wM := rfl
@[simp] theorem setPhase_wR : (setPhase p g).wR = g.wR := rfl
@[simp] theorem setPhase_wN : (setPhase p g).wN = g.wN := rfl
@[simp] theorem setPhase_wSeq : (setPhase p g).wSeq = g.wSeq := rfl
@[simp] theorem setPhase_wPos : (setPhase p g).wPos = g.wPos := rfl
@[simp] theorem setPhase_wOut : (setPhase p g).wOut = g.wOut := rfl
@[simp] theorem setPhase_tCov : (setPhase p g).tCov = g.tCov := rfl
@[simp] theorem setPhase_tObs : (setPhase p g).tObs = g.tObs := rfl
@[simp] theorem setPhase_tVal : (setPhase p g).tVal = g.tVal := rfl
@[simp] theorem setPhase_stStatus : (setPhase p g).stStatus = g.stStatus := rfl
@[simp] theorem setPhase_stCause : (setPhase p g).stCause = g.stCause := rfl
@[simp] theorem setPhase_stCorr : (setPhase p g).stCorr = g.stCorr := rfl

end

section

/-! `setResult` -/

variable {W : Nat} (st : Status) (c : Option Cause) (k : Bool) (g : Regs W)

@[simp] theorem setResult_phase : (setResult st c k g).phase = g.phase := rfl
@[simp] theorem setResult_qOp : (setResult st c k g).qOp = g.qOp := rfl
@[simp] theorem setResult_qLen : (setResult st c k g).qLen = g.qLen := rfl
@[simp] theorem setResult_qR : (setResult st c k g).qR = g.qR := rfl
@[simp] theorem setResult_qBits : (setResult st c k g).qBits = g.qBits := rfl
@[simp] theorem setResult_wM : (setResult st c k g).wM = g.wM := rfl
@[simp] theorem setResult_wR : (setResult st c k g).wR = g.wR := rfl
@[simp] theorem setResult_wN : (setResult st c k g).wN = g.wN := rfl
@[simp] theorem setResult_wSeq : (setResult st c k g).wSeq = g.wSeq := rfl
@[simp] theorem setResult_wPos : (setResult st c k g).wPos = g.wPos := rfl
@[simp] theorem setResult_wOut : (setResult st c k g).wOut = g.wOut := rfl
@[simp] theorem setResult_tCov : (setResult st c k g).tCov = g.tCov := rfl
@[simp] theorem setResult_tObs : (setResult st c k g).tObs = g.tObs := rfl
@[simp] theorem setResult_tVal : (setResult st c k g).tVal = g.tVal := rfl
@[simp] theorem setResult_stStatus : (setResult st c k g).stStatus = st := rfl
@[simp] theorem setResult_stCause : (setResult st c k g).stCause = c := rfl
@[simp] theorem setResult_stCorr : (setResult st c k g).stCorr = k := rfl

end

section

/-! `latch` -/

variable {W : Nat} (op : BitVec 1) (len r : BitVec (LW W)) (bits : BitVec W) (g : Regs W)

@[simp] theorem latch_phase : (latch op len r bits g).phase = g.phase := rfl
@[simp] theorem latch_qOp : (latch op len r bits g).qOp = op := rfl
@[simp] theorem latch_qLen : (latch op len r bits g).qLen = len := rfl
@[simp] theorem latch_qR : (latch op len r bits g).qR = r := rfl
@[simp] theorem latch_qBits : (latch op len r bits g).qBits = bits := rfl
@[simp] theorem latch_wM : (latch op len r bits g).wM = g.wM := rfl
@[simp] theorem latch_wR : (latch op len r bits g).wR = g.wR := rfl
@[simp] theorem latch_wN : (latch op len r bits g).wN = g.wN := rfl
@[simp] theorem latch_wSeq : (latch op len r bits g).wSeq = g.wSeq := rfl
@[simp] theorem latch_wPos : (latch op len r bits g).wPos = g.wPos := rfl
@[simp] theorem latch_wOut : (latch op len r bits g).wOut = g.wOut := rfl
@[simp] theorem latch_tCov : (latch op len r bits g).tCov = g.tCov := rfl
@[simp] theorem latch_tObs : (latch op len r bits g).tObs = g.tObs := rfl
@[simp] theorem latch_tVal : (latch op len r bits g).tVal = g.tVal := rfl
@[simp] theorem latch_stStatus : (latch op len r bits g).stStatus = g.stStatus := rfl
@[simp] theorem latch_stCause : (latch op len r bits g).stCause = g.stCause := rfl
@[simp] theorem latch_stCorr : (latch op len r bits g).stCorr = g.stCorr := rfl

end

section

/-! `writeTrace` -/

variable {W : Nat} (es : List TraceEntry) (g : Regs W)

@[simp] theorem writeTrace_phase : (writeTrace es g).phase = g.phase := rfl
@[simp] theorem writeTrace_qOp : (writeTrace es g).qOp = g.qOp := rfl
@[simp] theorem writeTrace_qLen : (writeTrace es g).qLen = g.qLen := rfl
@[simp] theorem writeTrace_qR : (writeTrace es g).qR = g.qR := rfl
@[simp] theorem writeTrace_qBits : (writeTrace es g).qBits = g.qBits := rfl
@[simp] theorem writeTrace_wM : (writeTrace es g).wM = g.wM := rfl
@[simp] theorem writeTrace_wR : (writeTrace es g).wR = g.wR := rfl
@[simp] theorem writeTrace_wN : (writeTrace es g).wN = g.wN := rfl
@[simp] theorem writeTrace_wSeq : (writeTrace es g).wSeq = g.wSeq := rfl
@[simp] theorem writeTrace_wPos : (writeTrace es g).wPos = g.wPos := rfl
@[simp] theorem writeTrace_wOut : (writeTrace es g).wOut = g.wOut := rfl
@[simp] theorem writeTrace_tCov : (writeTrace es g).tCov = portTrace W 0 (coverMask W) es := rfl
@[simp] theorem writeTrace_tObs : (writeTrace es g).tObs = portTrace W 0 (observedMask W) es := rfl
@[simp] theorem writeTrace_tVal : (writeTrace es g).tVal = portTrace W false TraceEntry.value es := rfl
@[simp] theorem writeTrace_stStatus : (writeTrace es g).stStatus = g.stStatus := rfl
@[simp] theorem writeTrace_stCause : (writeTrace es g).stCause = g.stCause := rfl
@[simp] theorem writeTrace_stCorr : (writeTrace es g).stCorr = g.stCorr := rfl

end

section

/-! `fail`, failure entry -/

variable {W : Nat} (c : Cause) (g : Regs W)

@[simp] theorem fail_phase : (fail c g).phase = .invalidInput := rfl
@[simp] theorem fail_qOp : (fail c g).qOp = g.qOp := rfl
@[simp] theorem fail_qLen : (fail c g).qLen = g.qLen := rfl
@[simp] theorem fail_qR : (fail c g).qR = g.qR := rfl
@[simp] theorem fail_qBits : (fail c g).qBits = g.qBits := rfl
@[simp] theorem fail_wM : (fail c g).wM = g.wM := rfl
@[simp] theorem fail_wR : (fail c g).wR = g.wR := rfl
@[simp] theorem fail_wN : (fail c g).wN = g.wN := rfl
@[simp] theorem fail_wSeq : (fail c g).wSeq = g.wSeq := rfl
@[simp] theorem fail_wPos : (fail c g).wPos = g.wPos := rfl
@[simp] theorem fail_wOut : (fail c g).wOut = g.wOut := rfl
@[simp] theorem fail_tCov : (fail c g).tCov = g.tCov := rfl
@[simp] theorem fail_tObs : (fail c g).tObs = g.tObs := rfl
@[simp] theorem fail_tVal : (fail c g).tVal = g.tVal := rfl
@[simp] theorem fail_stStatus : (fail c g).stStatus = .invalidInput := rfl
@[simp] theorem fail_stCause : (fail c g).stCause = some c := rfl
@[simp] theorem fail_stCorr : (fail c g).stCorr = false := rfl

end

section

/-! `failUncorrectable` -/

variable {W : Nat} (g : Regs W)

@[simp] theorem failUncorrectable_phase : (failUncorrectable g).phase = .uncorrectableError := rfl
@[simp] theorem failUncorrectable_qOp : (failUncorrectable g).qOp = g.qOp := rfl
@[simp] theorem failUncorrectable_qLen : (failUncorrectable g).qLen = g.qLen := rfl
@[simp] theorem failUncorrectable_qR : (failUncorrectable g).qR = g.qR := rfl
@[simp] theorem failUncorrectable_qBits : (failUncorrectable g).qBits = g.qBits := rfl
@[simp] theorem failUncorrectable_wM : (failUncorrectable g).wM = g.wM := rfl
@[simp] theorem failUncorrectable_wR : (failUncorrectable g).wR = g.wR := rfl
@[simp] theorem failUncorrectable_wN : (failUncorrectable g).wN = g.wN := rfl
@[simp] theorem failUncorrectable_wSeq : (failUncorrectable g).wSeq = g.wSeq := rfl
@[simp] theorem failUncorrectable_wPos : (failUncorrectable g).wPos = g.wPos := rfl
@[simp] theorem failUncorrectable_wOut : (failUncorrectable g).wOut = g.wOut := rfl
@[simp] theorem failUncorrectable_tCov : (failUncorrectable g).tCov = g.tCov := rfl
@[simp] theorem failUncorrectable_tObs : (failUncorrectable g).tObs = g.tObs := rfl
@[simp] theorem failUncorrectable_tVal : (failUncorrectable g).tVal = g.tVal := rfl
@[simp] theorem failUncorrectable_stStatus : (failUncorrectable g).stStatus = .uncorrectableError := rfl
@[simp] theorem failUncorrectable_stCause : (failUncorrectable g).stCause = none := rfl
@[simp] theorem failUncorrectable_stCorr : (failUncorrectable g).stCorr = false := rfl

end

section

/-! `finish` -/

variable {W : Nat} (p : Phase) (k : Bool) (g : Regs W)

@[simp] theorem finish_phase : (finish p k g).phase = p := rfl
@[simp] theorem finish_qOp : (finish p k g).qOp = g.qOp := rfl
@[simp] theorem finish_qLen : (finish p k g).qLen = g.qLen := rfl
@[simp] theorem finish_qR : (finish p k g).qR = g.qR := rfl
@[simp] theorem finish_qBits : (finish p k g).qBits = g.qBits := rfl
@[simp] theorem finish_wM : (finish p k g).wM = g.wM := rfl
@[simp] theorem finish_wR : (finish p k g).wR = g.wR := rfl
@[simp] theorem finish_wN : (finish p k g).wN = g.wN := rfl
@[simp] theorem finish_wSeq : (finish p k g).wSeq = g.wSeq := rfl
@[simp] theorem finish_wPos : (finish p k g).wPos = g.wPos := rfl
@[simp] theorem finish_wOut : (finish p k g).wOut = g.wOut := rfl
@[simp] theorem finish_tCov : (finish p k g).tCov = g.tCov := rfl
@[simp] theorem finish_tObs : (finish p k g).tObs = g.tObs := rfl
@[simp] theorem finish_tVal : (finish p k g).tVal = g.tVal := rfl
@[simp] theorem finish_stStatus : (finish p k g).stStatus = .ok := rfl
@[simp] theorem finish_stCause : (finish p k g).stCause = none := rfl
@[simp] theorem finish_stCorr : (finish p k g).stCorr = k := rfl

end

section

/-! `acknowledge`, the return -/

variable {W : Nat} (g : Regs W)

@[simp] theorem acknowledge_phase : (acknowledge g).phase = .idle := rfl
@[simp] theorem acknowledge_qOp : (acknowledge g).qOp = g.qOp := rfl
@[simp] theorem acknowledge_qLen : (acknowledge g).qLen = g.qLen := rfl
@[simp] theorem acknowledge_qR : (acknowledge g).qR = g.qR := rfl
@[simp] theorem acknowledge_qBits : (acknowledge g).qBits = g.qBits := rfl
@[simp] theorem acknowledge_wM : (acknowledge g).wM = g.wM := rfl
@[simp] theorem acknowledge_wR : (acknowledge g).wR = g.wR := rfl
@[simp] theorem acknowledge_wN : (acknowledge g).wN = g.wN := rfl
@[simp] theorem acknowledge_wSeq : (acknowledge g).wSeq = g.wSeq := rfl
@[simp] theorem acknowledge_wPos : (acknowledge g).wPos = g.wPos := rfl
@[simp] theorem acknowledge_wOut : (acknowledge g).wOut = g.wOut := rfl
@[simp] theorem acknowledge_tCov : (acknowledge g).tCov = g.tCov := rfl
@[simp] theorem acknowledge_tObs : (acknowledge g).tObs = g.tObs := rfl
@[simp] theorem acknowledge_tVal : (acknowledge g).tVal = g.tVal := rfl
@[simp] theorem acknowledge_stStatus : (acknowledge g).stStatus = g.stStatus := rfl
@[simp] theorem acknowledge_stCause : (acknowledge g).stCause = g.stCause := rfl
@[simp] theorem acknowledge_stCorr : (acknowledge g).stCorr = g.stCorr := rfl

end

section

/-! `resetBlock` -/

variable {W : Nat} (g : Regs W)

@[simp] theorem resetBlock_phase : (resetBlock g).phase = .idle := rfl
@[simp] theorem resetBlock_qOp : (resetBlock g).qOp = g.qOp := rfl
@[simp] theorem resetBlock_qLen : (resetBlock g).qLen = g.qLen := rfl
@[simp] theorem resetBlock_qR : (resetBlock g).qR = g.qR := rfl
@[simp] theorem resetBlock_qBits : (resetBlock g).qBits = g.qBits := rfl
@[simp] theorem resetBlock_wM : (resetBlock g).wM = g.wM := rfl
@[simp] theorem resetBlock_wR : (resetBlock g).wR = g.wR := rfl
@[simp] theorem resetBlock_wN : (resetBlock g).wN = g.wN := rfl
@[simp] theorem resetBlock_wSeq : (resetBlock g).wSeq = g.wSeq := rfl
@[simp] theorem resetBlock_wPos : (resetBlock g).wPos = g.wPos := rfl
@[simp] theorem resetBlock_wOut : (resetBlock g).wOut = g.wOut := rfl
@[simp] theorem resetBlock_tCov : (resetBlock g).tCov = g.tCov := rfl
@[simp] theorem resetBlock_tObs : (resetBlock g).tObs = g.tObs := rfl
@[simp] theorem resetBlock_tVal : (resetBlock g).tVal = g.tVal := rfl
@[simp] theorem resetBlock_stStatus : (resetBlock g).stStatus = g.stStatus := rfl
@[simp] theorem resetBlock_stCause : (resetBlock g).stCause = g.stCause := rfl
@[simp] theorem resetBlock_stCorr : (resetBlock g).stCorr = g.stCorr := rfl

end

section

/-! Updates of the whole state -/

variable (s : State) (f : Regs s.W → Regs s.W)

@[simp] theorem updRegs_W : (updRegs s f).W = s.W := rfl
@[simp] theorem updRegs_inputs : (updRegs s f).inputs = s.inputs := rfl
@[simp] theorem updRegs_regs : (updRegs s f).regs = f s.regs := rfl
@[simp] theorem afterSample_W : (afterSample s).W = s.W := rfl
@[simp] theorem afterSample_inputs : (afterSample s).inputs = s.inputs.tail := rfl
@[simp] theorem afterSample_regs : (afterSample s).regs = s.regs := rfl

end

@[simp] theorem updRegs_mk {W : Nat} (ins : List (PortIn W)) (g : Regs W) (f : Regs W → Regs W) :
    updRegs ⟨W, ins, g⟩ f = ⟨W, ins, f g⟩ := rfl

@[simp] theorem pins_cons {W : Nat} (p : PortIn W) (ins : List (PortIn W)) (g : Regs W) :
    pins ⟨W, p :: ins, g⟩ = p := rfl

@[simp] theorem pins_nil {W : Nat} (g : Regs W) : pins ⟨W, [], g⟩ = PortIn.quiet W := rfl

@[simp] theorem afterSample_mk {W : Nat} (ins : List (PortIn W)) (g : Regs W) :
    afterSample ⟨W, ins, g⟩ = ⟨W, ins.tail, g⟩ := rfl

@[simp] theorem inPhase_self {W : Nat} (p : Phase) (f : Regs W → Regs W) (g : Regs W) (h : g.phase = p) :
    inPhase p f g = f g := if_pos h

@[simp] theorem inPhase_other {W : Nat} (p : Phase) (f : Regs W → Regs W) (g : Regs W) (h : g.phase ≠ p) :
    inPhase p f g = g := if_neg h

/-- Everything a phase-bound step can do: its effect in its phase, nothing elsewhere. -/
theorem inPhase_cases {W : Nat} (p : Phase) (f : Regs W → Regs W) (g : Regs W) :
    (g.phase = p ∧ inPhase p f g = f g) ∨ (g.phase ≠ p ∧ inPhase p f g = g) := by
  by_cases h : g.phase = p
  · exact .inl ⟨h, if_pos h⟩
  · exact .inr ⟨h, if_neg h⟩

end Sys2Proof.Machine
end

