-- ==== Sys2Proof/Laws/Step.lean ====
section
/-! SUPPORT. What a step can do, said once: each instruction answers a next state whose registers are its effect, and a
step is reset, the selected operation, or the handshake. -/

namespace Sys2Proof.Machine

/-- The effect of an instruction on the registers. -/
def effect {W : Nat} (i : Instr) : Regs W → Regs W :=
  match i with
  | .encode len r bits => inPhase .idle (acceptEncode (BitVec.ofNat _ len) (BitVec.ofNat _ r) (BitVec.ofNat _ bits))
  | .decode len r bits => inPhase .idle (acceptDecode (BitVec.ofNat _ len) (BitVec.ofNat _ r) (BitVec.ofNat _ bits))
  | .calcr => inPhase .countParityBits countParityBits
  | .interleave => inPhase .interleave interleaveStep
  | .parity => inPhase .computeParity parityStep
  | .syndrome => inPhase .computeSyndrome syndromeStep
  | .correct => inPhase .singleBitError correctStep

/-- Every instruction answers a next state: the same width and pins, the registers of its effect. -/
theorem exec_eq (i : Instr) (s : State) : exec i s = .next (updRegs s (effect i)) := by
  cases i <;> rfl

/-- The registers after a step, from the registers before it and the pins sampled. -/
def stepRegs {W : Nat} (p : PortIn W) (g : Regs W) : Regs W :=
  if p.rst then resetBlock g
  else
    match g.phase with
    | .idle =>
      if p.reqValid then
        (if p.reqOp = 0#1 then acceptEncode p.reqLen p.reqR p.reqBits g
         else acceptDecode p.reqLen p.reqR p.reqBits g)
      else g
    | .countParityBits => countParityBits g
    | .interleave => interleaveStep g
    | .computeParity => parityStep g
    | .computeSyndrome => syndromeStep g
    | .singleBitError => correctStep g
    | .encoded => handshake p.rspAck g
    | .noError => handshake p.rspAck g
    | .corrected => handshake p.rspAck g
    | .uncorrectableError => handshake p.rspAck g
    | .invalidInput => handshake p.rspAck g

/-! The fields of a packed request word. -/

section
variable {W : Nat} (op : BitVec 1) (len r : BitVec (LW W)) (bits : BitVec W)

@[simp] theorem reqOpField_packReq : reqOpField (packReq op len r bits) = op := by
  apply BitVec.eq_of_getLsbD_eq
  intro i hi
  simp only [reqOpField, packReq, BitVec.getLsbD_extractLsb', BitVec.getLsbD_append]
  rw [if_neg (by omega)]
  simp [hi]

@[simp] theorem reqLenField_packReq : reqLenField (packReq op len r bits) = len := by
  apply BitVec.eq_of_getLsbD_eq
  intro i hi
  simp only [reqLenField, packReq, BitVec.getLsbD_extractLsb', BitVec.getLsbD_append]
  rw [if_pos (by omega), if_neg (by omega), show LW W + W + i - (LW W + W) = i by omega]
  simp [hi]

@[simp] theorem reqRField_packReq : reqRField (packReq op len r bits) = r := by
  apply BitVec.eq_of_getLsbD_eq
  intro i hi
  simp only [reqRField, packReq, BitVec.getLsbD_extractLsb', BitVec.getLsbD_append]
  rw [if_pos (by omega), if_pos (by omega), if_neg (by omega)]
  simp [hi]

@[simp] theorem reqBitsField_packReq : reqBitsField (packReq op len r bits) = bits := by
  apply BitVec.eq_of_getLsbD_eq
  intro i hi
  simp only [reqBitsField, packReq, BitVec.getLsbD_extractLsb', BitVec.getLsbD_append]
  rw [if_pos (by omega), if_pos (by omega), if_pos (by omega)]
  simp [hi]

end

theorem decodeReq_packReq {W : Nat} (op : BitVec 1) (len r : BitVec (LW W)) (bits : BitVec W) :
    decodeReq (packReq op len r bits) =
      if op = 0#1 then .encode len.toNat r.toNat bits.toNat else .decode len.toNat r.toNat bits.toNat := by
  simp [decodeReq]

/-- Everything a step does: it takes one sample and turns the registers into `stepRegs`. -/
theorem step_eq (s : State) : step s = .next ⟨s.W, s.inputs.tail, stepRegs (pins s) s.regs⟩ := by
  unfold step stepRegs
  by_cases hr : (pins s).rst = true
  · simp only [hr, if_true]; rfl
  · simp only [hr]
    unfold fetch
    cases hp : s.regs.phase
    case idle =>
      by_cases hv : (pins s).reqValid = true
      · simp only [hv, if_true, decodeWord, portWord, decodeReq_packReq, exec_eq]
        by_cases hop : (pins s).reqOp = 0#1 <;> simp [hop, updRegs, afterSample, effect, hp]
      · simp only [hv]
        simp [updRegs, afterSample, handshake, isTerminal, statusOfPhase, hp]
    all_goals simp [isWorking, phaseCode, decodeWord, decodePhase, exec_eq, updRegs, afterSample, effect, hp]

/-- A step on written-out pins. -/
theorem step_cons {W : Nat} (p : PortIn W) (ins : List (PortIn W)) (g : Regs W) :
    step ⟨W, p :: ins, g⟩ = .next ⟨W, ins, stepRegs p g⟩ := step_eq _

/-- A step on pins that have run out. -/
theorem step_nil {W : Nat} (g : Regs W) : step ⟨W, [], g⟩ = .next ⟨W, [], stepRegs (PortIn.quiet W) g⟩ := step_eq _

/-- In Idle, a presented request is accepted by the step of its operation code. -/
theorem stepRegs_accept {W : Nat} (p : PortIn W) (g : Regs W) (hp : g.phase = .idle) (hr : p.rst = false)
    (hv : p.reqValid = true) :
    (p.reqOp = 0#1 ∧ stepRegs p g = acceptEncode p.reqLen p.reqR p.reqBits g) ∨
    (p.reqOp = 1#1 ∧ stepRegs p g = acceptDecode p.reqLen p.reqR p.reqBits g) := by
  have hop : ∀ x : BitVec 1, x = 0#1 ∨ x = 1#1 := by decide
  unfold stepRegs
  rcases hop p.reqOp with h | h <;> simp [hp, hr, hv, h]

/-- The first of several steps. -/
theorem run_succ (step' : State → Host.Outcome State Fault Refusal) (reset : State) (k : Nat) (s t : State)
    (h : step' s = .next t) :
    Host.Core.run ⟨State, Fault, Refusal, step', reset⟩ (k + 1) s =
      Host.Core.run ⟨State, Fault, Refusal, step', reset⟩ k t := by
  simp only [Host.Core.run, h]

end Sys2Proof.Machine
end

