-- ==== Sys2Proof/Laws/Cases.lean ====
section
/-! SUPPORT. For each step of the sequencer, everything it can do: its exits, each with the condition that takes it and
the registers it leaves. Proofs cite these and do not unfold the step. -/

namespace Sys2Proof.Machine

section
variable {W : Nat} (len r : BitVec (LW W)) (bits : BitVec W) (g : Regs W)

theorem acceptEncode_cases :
    (∃ c, operandFailure len bits = some c ∧ acceptEncode len r bits g = fail c (latch 0#1 len r bits g)) ∨
    (operandFailure len bits = none ∧
      acceptEncode len r bits g = { latch 0#1 len r bits g with wM := len, phase := .countParityBits }) := by
  unfold acceptEncode
  cases h : operandFailure len bits with
  | some c => exact .inl ⟨c, rfl, rfl⟩
  | none => exact .inr ⟨rfl, rfl⟩

theorem acceptDecode_cases :
    (∃ c, decodeFailure len r bits = some c ∧ acceptDecode len r bits g = fail c (latch 1#1 len r bits g)) ∨
    (decodeFailure len r bits = none ∧
      acceptDecode len r bits g = { latch 1#1 len r bits g with wN := len, wR := r, phase := .computeSyndrome }) := by
  unfold acceptDecode
  cases h : decodeFailure len r bits with
  | some c => exact .inl ⟨c, rfl, rfl⟩
  | none => exact .inr ⟨rfl, rfl⟩

/-- `decodeFailure` passes exactly a valid operand with a consistent `r`. -/
theorem decodeFailure_none_iff :
    decodeFailure len r bits = none ↔ operandFailure len bits = none ∧ rconsistent len.toNat r.toNat = true := by
  unfold decodeFailure
  cases operandFailure len bits with
  | some c => simp
  | none => cases rconsistent len.toNat r.toNat <;> simp

theorem countParityBits_cases :
    (∃ c, calcR g.wM.toNat = .error c ∧ countParityBits g = fail c g) ∨
    (∃ n, calcR g.wM.toNat = .ok n ∧ W < g.wM.toNat + n ∧ countParityBits g = fail .capacity g) ∨
    (∃ n, calcR g.wM.toNat = .ok n ∧ g.wM.toNat + n ≤ W ∧ countParityBits g =
      { g with wR := BitVec.ofNat _ n, wN := BitVec.ofNat _ (g.wM.toNat + n), phase := .interleave }) := by
  unfold countParityBits
  cases h : calcR g.wM.toNat with
  | error c => exact .inl ⟨c, rfl, rfl⟩
  | ok n =>
    by_cases hW : W < g.wM.toNat + n
    · exact .inr (.inl ⟨n, rfl, hW, if_pos hW⟩)
    · exact .inr (.inr ⟨n, rfl, by omega, if_neg hW⟩)

theorem interleaveStep_cases :
    (∃ c, interleave (ofBus g.qLen.toNat g.qBits) g.wR.toNat = .error c ∧ interleaveStep g = fail c g) ∨
    (∃ S, interleave (ofBus g.qLen.toNat g.qBits) g.wR.toNat = .ok S ∧
      interleaveStep g = { g with wSeq := toBus W S, phase := .computeParity }) := by
  unfold interleaveStep
  cases h : interleave (ofBus g.qLen.toNat g.qBits) g.wR.toNat with
  | error c => exact .inl ⟨c, rfl, rfl⟩
  | ok S => exact .inr ⟨S, rfl, rfl⟩

/-- The registers ComputeSyndrome writes on every exit. -/
def withSyndrome (g : Regs W) : Regs W :=
  writeTrace (syndrome (ofBus g.qLen.toNat g.qBits) g.wR.toNat).2
    { g with wPos := BitVec.ofNat _ (syndrome (ofBus g.qLen.toNat g.qBits) g.wR.toNat).1, wOut := g.qBits }

theorem syndromeStep_cases (pos : Nat) (hpos : pos = (syndrome (ofBus g.qLen.toNat g.qBits) g.wR.toNat).1) :
    (pos = 0 ∧ syndromeStep g = finish .noError false (withSyndrome g)) ∨
    (1 ≤ pos ∧ pos ≤ g.wN.toNat ∧ syndromeStep g = setPhase .singleBitError (withSyndrome g)) ∨
    (g.wN.toNat < pos ∧ syndromeStep g = failUncorrectable (withSyndrome g)) := by
  unfold syndromeStep classify withSyndrome
  simp only [← hpos]
  by_cases h0 : pos = 0
  · exact .inl ⟨h0, by simp [h0]⟩
  · by_cases h1 : pos ≤ g.wN.toNat
    · exact .inr (.inl ⟨by omega, h1, by simp [h0, h1]⟩)
    · exact .inr (.inr ⟨by omega, by simp [h0, h1]⟩)

theorem correctStep_cases :
    ((g.wPos.toNat = 0 ∨ g.qLen.toNat < g.wPos.toNat) ∧ correctStep g = fail .badPosition g) ∨
    (1 ≤ g.wPos.toNat ∧ g.wPos.toNat ≤ g.qLen.toNat ∧ correctStep g = finish .corrected true
      { g with wOut := toBus W (setbit (ofBus g.qLen.toNat g.qBits) g.wPos.toNat
        (!bit (ofBus g.qLen.toNat g.qBits) g.wPos.toNat)) }) := by
  unfold correctStep correct
  simp only [ofBus_length]
  by_cases h : g.wPos.toNat = 0 ∨ g.qLen.toNat < g.wPos.toNat
  · exact .inl ⟨h, by simp [h]⟩
  · exact .inr ⟨by omega, by omega, by simp [h]⟩

/-- The handshake either returns to Idle from a terminal phase or changes nothing. -/
theorem handshake_cases (ack : Bool) :
    (isTerminal g.phase = true ∧ ack = true ∧ handshake ack g = setPhase .idle g) ∨
    ((isTerminal g.phase = false ∨ ack = false) ∧ handshake ack g = g) := by
  unfold handshake
  cases h : isTerminal g.phase <;> cases ack <;> simp [acknowledge]

end

/-- A request word is its fields. -/
theorem packReq_fields {W : Nat} (w : BitVec (reqWidth W)) :
    packReq (reqOpField w) (reqLenField w) (reqRField w) (reqBitsField w) = w := by
  apply BitVec.eq_of_getLsbD_eq
  intro i hi
  unfold reqWidth at hi
  simp only [reqOpField, reqLenField, reqRField, reqBitsField, packReq, BitVec.getLsbD_extractLsb',
    BitVec.getLsbD_append]
  split
  · split
    · split
      · simp [*]
      · have : i - W < LW W := by omega
        simp [this]; congr 1; omega
    · have : i - (LW W + W) < LW W := by omega
      simp [this]; congr 1; omega
  · have : i - (LW W + (LW W + W)) < 1 := by omega
    simp [this]; congr 1; omega

end Sys2Proof.Machine
end

