-- ==== Sys2Proof/Laws/Counting.lean ====
section
/-! SUPPORT. The laws of `bitlength`, of powers of two among positions, and of CALCR's scan. -/

namespace Sys2Proof

theorem lt_two_pow_bitlength (x : Nat) : x < 2 ^ bitlength x := by
  unfold bitlength
  split
  · subst_vars; simp
  · exact Nat.lt_log2_self

theorem two_pow_le_of_bitlength (x : Nat) (h : x ≠ 0) : 2 ^ (bitlength x - 1) ≤ x := by
  simp only [bitlength, h, if_false, Nat.add_sub_cancel]
  exact Nat.log2_self_le h

/-- `bitlength` is determined by the two powers around the number. -/
theorem bitlength_unique (x r : Nat) (h1 : 2 ^ r ≤ x) (h2 : x < 2 ^ (r + 1)) : bitlength x = r + 1 := by
  have hx : x ≠ 0 := by have := Nat.two_pow_pos r; omega
  have h := (Nat.log2_eq_iff hx).mpr ⟨h1, h2⟩
  simp [bitlength, hx, h]

theorem bitlength_mono {x y : Nat} (h : x ≤ y) : bitlength x ≤ bitlength y := by
  by_contra hc
  have hx : x ≠ 0 := by rintro rfl; simp [bitlength] at hc
  have h1 := two_pow_le_of_bitlength x hx
  have h2 := lt_two_pow_bitlength y
  have : 2 ^ bitlength y ≤ 2 ^ (bitlength x - 1) := Nat.pow_le_pow_right (by omega) (by omega)
  omega

end Sys2Proof

namespace Sys2Proof.Machine

/-- `ispow2` says what its name says. -/
theorem ispow2_iff (p : Nat) : ispow2 p = true ↔ ∃ i, p = 2 ^ i := by
  unfold ispow2
  rw [Bool.and_eq_true, decide_eq_true_iff, decide_eq_true_iff]
  constructor
  · rintro ⟨h1, h2⟩
    refine ⟨Nat.log2 p, ?_⟩
    have hp : p ≠ 0 := by omega
    have hle := Nat.log2_self_le hp
    have hlt := Nat.lt_log2_self (n := p)
    by_contra hne
    have hb1 : p.testBit (Nat.log2 p) = true := by
      rw [Nat.testBit_eq_decide_div_mod_eq, decide_eq_true_iff]
      have : p / 2 ^ Nat.log2 p = 1 := by
        apply Nat.div_eq_of_lt_le <;> (try rw [Nat.pow_succ] at hlt) <;> omega
      rw [this]
    have hb2 : (p - 1).testBit (Nat.log2 p) = true := by
      rw [Nat.testBit_eq_decide_div_mod_eq, decide_eq_true_iff]
      have : (p - 1) / 2 ^ Nat.log2 p = 1 := by
        apply Nat.div_eq_of_lt_le <;> (try rw [Nat.pow_succ] at hlt) <;> omega
      rw [this]
    have := congrArg (fun x => x.testBit (Nat.log2 p)) h2
    simp [Nat.testBit_and, hb1, hb2] at this
  · rintro ⟨i, rfl⟩
    exact ⟨Nat.two_pow_pos i, by rw [Nat.and_two_pow_sub_one_eq_mod]; simp⟩

/-- The scan returns the least `r` at or above its start that satisfies the inequality, if its fuel reaches one. -/
theorem scanR_least (m fuel r t : Nat) (ht : m + t + 1 ≤ 2 ^ t) (hrt : r ≤ t) (hf : t ≤ r + fuel) :
    m + scanR m fuel r + 1 ≤ 2 ^ scanR m fuel r ∧ r ≤ scanR m fuel r ∧ scanR m fuel r ≤ t ∧
      ∀ r', r ≤ r' → r' < scanR m fuel r → 2 ^ r' < m + r' + 1 := by
  induction fuel generalizing r with
  | zero =>
    obtain rfl : r = t := by omega
    exact ⟨ht, by simp [scanR], by simp [scanR], fun r' h1 h2 => by simp [scanR] at h2; omega⟩
  | succ fuel ih =>
    unfold scanR
    split
    · rename_i h
      have hne : r ≠ t := by rintro rfl; omega
      obtain ⟨h1, h2, h3, h4⟩ := ih (r + 1) (by omega) (by omega)
      refine ⟨h1, by omega, h3, fun r' ha hb => ?_⟩
      rcases Nat.eq_or_lt_of_le ha with rfl | hlt
      · exact h
      · exact h4 r' hlt hb
    · rename_i h
      exact ⟨by omega, Nat.le_refl _, hrt, fun r' h1 h2 => by omega⟩

/-- The bound of 40_redundant_bit_counter.md R83. -/
theorem bound_suffices (m : Nat) (h : m ≠ 0) : m + (bitlength m + 1) + 1 ≤ 2 ^ (bitlength m + 1) := by
  have h1 := lt_two_pow_bitlength m
  have h2 : bitlength m ≤ m := by
    have := two_pow_le_of_bitlength m h
    have := Nat.lt_two_pow_self (n := bitlength m - 1)
    omega
  rw [Nat.pow_succ]
  omega

/-- Once the inequality holds it holds for every larger count. -/
theorem inequality_stays (m r t : Nat) (h : m + r + 1 ≤ 2 ^ r) (hrt : r ≤ t) : m + t + 1 ≤ 2 ^ t := by
  induction hrt with
  | refl => exact h
  | step _ ih => rw [Nat.pow_succ]; omega

theorem calcR_zero : calcR 0 = .error .empty := rfl

/-- Everything CALCR answers for a nonempty message: a least count that satisfies the inequality. -/
theorem calcR_pos (m : Nat) (h : m ≠ 0) :
    ∃ r, calcR m = .ok r ∧ m + r + 1 ≤ 2 ^ r ∧ r ≤ bitlength m + 1 ∧ ∀ r', r' < r → 2 ^ r' < m + r' + 1 := by
  obtain ⟨h1, _, h3, h4⟩ := scanR_least m (bitlength m + 1) 0 (bitlength m + 1) (bound_suffices m h) (by omega) (by omega)
  exact ⟨_, by simp [calcR, h], h1, h3, fun r' hr => h4 r' (by omega) hr⟩

/-- The least count is determined by the inequality. -/
theorem calcR_eq_ok_iff (m r : Nat) :
    calcR m = .ok r ↔ m ≠ 0 ∧ m + r + 1 ≤ 2 ^ r ∧ ∀ r', r' < r → 2 ^ r' < m + r' + 1 := by
  by_cases h : m = 0
  · subst h; simp [calcR]
  · obtain ⟨t, ht, h1, _, h3⟩ := calcR_pos m h
    rw [ht]
    constructor
    · intro he; cases he; exact ⟨h, h1, h3⟩
    · rintro ⟨_, h4, h5⟩
      congr 1
      rcases Nat.lt_trichotomy t r with hlt | rfl | hlt
      · have := h5 t hlt; omega
      · rfl
      · have := h3 r hlt; omega

/-- A count and its codeword length stand between two consecutive powers of two. -/
theorem calcR_brackets (m r : Nat) (h : calcR m = .ok r) :
    1 ≤ m ∧ 2 ≤ r ∧ 2 ^ (r - 1) < m + r ∧ m + r < 2 ^ r := by
  obtain ⟨h0, h1, h2⟩ := (calcR_eq_ok_iff m r).mp h
  have hr : 2 ≤ r := by
    rcases r with _ | _ | r
    · simp at h1; omega
    · simp at h1; omega
    · omega
  have := h2 (r - 1) (by omega)
  exact ⟨by omega, hr, by omega, by omega⟩

theorem calcR_eq_bitlength (m r : Nat) (h : calcR m = .ok r) : r = bitlength (m + r) := by
  obtain ⟨_, h2, h3, h4⟩ := calcR_brackets m r h
  have h5 : r - 1 + 1 = r := by omega
  rw [bitlength_unique (m + r) (r - 1) (by omega) (by rw [h5]; omega), h5]

/-- `rconsistent` in the words of 47_decode_command.md R163. -/
theorem rconsistent_iff (n r : Nat) : rconsistent n r = true ↔ r < n ∧ calcR (n - r) = .ok r := by
  unfold rconsistent
  split
  · simp; omega
  · rename_i h
    cases hc : calcR (n - r) with
    | error c => simp
    | ok r' => simp; omega

end Sys2Proof.Machine
end

