-- ==== Sys2Proof/Laws/Words.lean ====
section
/-! SUPPORT. The laws of the component operations on words: coverage sets, placement, parity, syndrome. -/

namespace Sys2Proof.Machine

/-! ### Coverage sets -/

theorem mem_cov (n i j : Nat) : j ∈ cov n i ↔ 1 ≤ j ∧ j ≤ n ∧ j.testBit i = true := by
  have hbit : (j &&& 2 ^ i == 2 ^ i) = j.testBit i := by
    rw [Nat.and_two_pow]
    have := Nat.two_pow_pos i
    cases h : j.testBit i
    · simp; omega
    · simp
  simp only [cov, List.mem_filter, List.mem_range'_1, hbit]
  constructor
  · rintro ⟨⟨h1, h2⟩, h3⟩; exact ⟨h1, by omega, h3⟩
  · rintro ⟨h1, h2, h3⟩; exact ⟨⟨h1, by omega⟩, h3⟩

theorem cov_nodup (n i : Nat) : (cov n i).Nodup := (List.nodup_range' (s := 1) (n := n)).filter _

/-- One write changes the parity over a coverage set exactly when it changes a covered bit. -/
theorem xorAll_observed_setbit (S : BitString) (p i : Nat) (v : Bool) (h1 : 1 ≤ p) (h2 : p ≤ S.length) :
    xorAll (observed (setbit S p v) i) = (xorAll (observed S i) ^^ (p.testBit i && (bit S p ^^ v))) := by
  have hpt : ∀ j, bit (setbit S p v) j = (bit S j ^^ (decide (j = p) && (bit S p ^^ v))) := by
    intro j
    rw [bit_setbit]
    by_cases hj : j = p
    · subst hj; simp [h1, h2]
    · simp [hj]
  simp only [observed, setbit_length]
  rw [List.map_congr_left (fun j _ => hpt j), xorAll_map_xor]
  congr 1
  cases hv : (bit S p ^^ v)
  · simpa using xorAll_map_false (cov S.length i)
  · have hm : decide (p ∈ cov S.length i) = p.testBit i := by
      have := mem_cov S.length i p
      cases hb : p.testBit i <;> simp_all
    simp only [Bool.and_true]
    rw [xorAll_indicator _ _ (cov_nodup _ _), hm]

@[simp] theorem flipAt_length (S : BitString) (p : Nat) : (flipAt S p).length = S.length := setbit_length _ _ _

/-- Inverting position `p` changes the parities of the indices at which `p` has a 1 bit. -/
theorem xorAll_observed_flip (S : BitString) (p i : Nat) (h1 : 1 ≤ p) (h2 : p ≤ S.length) :
    xorAll (observed (flipAt S p) i) = (xorAll (observed S i) ^^ p.testBit i) := by
  rw [flipAt, xorAll_observed_setbit S p i _ h1 h2]; simp

/-- A write at another parity position is not seen by the coverage set of `i` (42_parity_computer.md R101 (a)). -/
theorem observed_setbit_other (S : BitString) (k i : Nat) (v : Bool) (h : k ≠ i) :
    observed (setbit S (2 ^ k) v) i = observed S i := by
  simp only [observed, setbit_length]
  apply List.map_congr_left
  intro j hj
  have hne : j ≠ 2 ^ k := by
    rintro rfl
    have := ((mem_cov _ _ _).mp hj).2.2
    rw [Nat.testBit_two_pow] at this
    exact h (by simpa using this)
  rw [bit_setbit, if_neg (fun h => hne h.1)]

theorem traceEntry_setbit_other (S : BitString) (k i : Nat) (v : Bool) (h : k ≠ i) :
    traceEntry (setbit S (2 ^ k) v) i = traceEntry S i := by
  simp only [traceEntry, observed_setbit_other S k i v h, setbit_length]

/-! ### Placement -/

/-- The powers of two up to `x + 1` are those up to `x`, and `x + 1` if it is one. -/
theorem bitlength_succ (x : Nat) :
    bitlength (x + 1) = if ispow2 (x + 1) then bitlength x + 1 else bitlength x := by
  have hlt := lt_two_pow_bitlength x
  split
  · rename_i h
    obtain ⟨i, hi⟩ := (ispow2_iff _).mp h
    have hx : bitlength x = i := by
      rcases i with _ | i
      · simp at hi; subst hi; rfl
      · exact bitlength_unique x i (by rw [Nat.pow_succ] at hi; have := Nat.two_pow_pos i; omega) (by omega)
    rw [hx, hi]
    exact bitlength_unique _ i (Nat.le_refl _) (Nat.pow_lt_pow_right (by omega) (by omega))
  · rename_i h
    have hne : x + 1 ≠ 2 ^ bitlength x := fun he => h ((ispow2_iff _).mpr ⟨_, he⟩)
    have hx : x ≠ 0 := by rintro rfl; exact hne rfl
    have hle := two_pow_le_of_bitlength x hx
    have hb : bitlength x - 1 + 1 = bitlength x := by
      have : bitlength x ≠ 0 := by simp [bitlength, hx]
      omega
    have := bitlength_unique (x + 1) (bitlength x - 1) (by omega) (by rw [hb]; omega)
    omega

theorem placeFrom_length (D : BitString) (r count p k i : Nat) : (placeFrom D r count p k i).length = count := by
  induction count generalizing p k i with
  | zero => rfl
  | succ count ih => unfold placeFrom; split <;> simp [ih]

/-- Everything the placement loop does: 0 at the powers of two, and at every other position `q` the data bit numbered
`q - bitlength(q)` from the right. -/
theorem placeFrom_getD (D : BitString) (r count x k i : Nat) (hi : i = bitlength x) (hk : k + i = x)
    (hr : x + count < 2 ^ r) (d : Nat) (hd : d < count) :
    (placeFrom D r count (x + 1) k i).getD d false =
      if ispow2 (x + 1 + d) then false else bit D (x + 1 + d - bitlength (x + 1 + d)) := by
  induction count generalizing x k i d with
  | zero => omega
  | succ count ih =>
    have hstep := bitlength_succ x
    have hpow : (i < r ∧ x + 1 = 2 ^ i) ↔ ispow2 (x + 1) = true := by
      constructor
      · rintro ⟨_, h⟩; exact (ispow2_iff _).mpr ⟨i, h⟩
      · intro h
        rw [if_pos h] at hstep
        have h1 := two_pow_le_of_bitlength (x + 1) (by omega)
        have h2 := lt_two_pow_bitlength x
        rw [hstep, Nat.add_sub_cancel, ← hi] at h1
        rw [← hi] at h2
        refine ⟨?_, by omega⟩
        by_contra hc
        have : 2 ^ r ≤ 2 ^ i := Nat.pow_le_pow_right (by omega) (by omega)
        omega
    unfold placeFrom
    by_cases hp : ispow2 (x + 1) = true
    · rw [if_pos (hpow.mpr hp)]
      rw [if_pos hp] at hstep
      cases d with
      | zero => simp [hp]
      | succ d =>
        have := ih (x + 1) k (i + 1) (by omega) (by omega) (by omega) d (by omega)
        rw [show x + 1 + (d + 1) = x + 1 + 1 + d by omega, List.getD_cons_succ]
        exact this
    · rw [if_neg (fun h => hp (hpow.mp h))]
      rw [if_neg hp] at hstep
      cases d with
      | zero =>
        rw [List.getD_cons_zero, Nat.add_zero, if_neg hp, hstep, ← hi]
        congr 1; omega
      | succ d =>
        have := ih (x + 1) (k + 1) i (by omega) (by omega) (by omega) d (by omega)
        rw [show x + 1 + (d + 1) = x + 1 + 1 + d by omega, List.getD_cons_succ]
        exact this

/-- Everything the check of the count does: the result for `r = CALCR(m)`, else a refusal with one of two causes. -/
theorem forCount_cases {α : Type} (m r : Nat) (x : α) :
    (calcR m = .ok r ∧ forCount m r x = .ok x) ∨
    (calcR m ≠ .ok r ∧ ∃ c, (c = .empty ∨ c = .rMismatch) ∧ forCount m r x = .error c) := by
  unfold forCount
  by_cases h0 : m = 0
  · subst h0; exact .inr ⟨by simp [calcR_zero], .empty, .inl rfl, by simp [calcR_zero]⟩
  · obtain ⟨r', h, _⟩ := calcR_pos m h0
    rw [h]
    by_cases hr : r' = r
    · exact .inl ⟨by rw [hr], if_pos hr⟩
    · exact .inr ⟨by simpa using hr, .rMismatch, .inr rfl, if_neg hr⟩

/-- INTERLEAVE succeeds exactly for `r = CALCR(m)` (41_interleaver.md R94). -/
theorem interleave_eq_ok_iff (D : BitString) (r : Nat) (S : BitString) :
    interleave D r = .ok S ↔ calcR D.length = .ok r ∧ S = placeFrom D r (D.length + r) 1 0 0 := by
  unfold interleave
  rcases forCount_cases D.length r (placeFrom D r (D.length + r) 1 0 0) with ⟨hc, h⟩ | ⟨hc, c, _, h⟩ <;>
    simp [h, hc, eq_comm]

/-- Everything INTERLEAVE answers: the length, and every bit. -/
theorem interleave_bits (D : BitString) (r : Nat) (S : BitString) (h : interleave D r = .ok S) :
    S.length = D.length + r ∧ ∀ p, 1 ≤ p → p ≤ D.length + r →
      bit S p = if ispow2 p then false else bit D (p - bitlength p) := by
  obtain ⟨hc, rfl⟩ := (interleave_eq_ok_iff D r S).mp h
  refine ⟨placeFrom_length .., fun p h1 h2 => ?_⟩
  obtain ⟨d, rfl⟩ : ∃ d, p = d + 1 := ⟨p - 1, by omega⟩
  have := placeFrom_getD D r (D.length + r) 0 0 0 rfl rfl (by have := calcR_brackets _ _ hc; omega) d (by omega)
  rw [bit_succ]
  rw [show 0 + 1 + d = d + 1 by omega] at this
  exact this

/-! ### Parity -/

/-- The loop of PARITY over distinct indices, in any order, is all entries computed from the sequence at once, each
value written at its own position. -/
theorem parityFrom_eq (l : List Nat) (hl : l.Nodup) (S : BitString) :
    parityFrom l S =
      (l.foldl (fun T i => setbit T (2 ^ i) (xorAll (observed S i))) S, l.map (traceEntry S)) := by
  induction l generalizing S with
  | nil => rfl
  | cons i is ih =>
    have hnd := List.nodup_cons.mp hl
    have hne : ∀ k ∈ is, i ≠ k := fun k hk he => hnd.1 (he ▸ hk)
    have htr : is.map (traceEntry (setbit S (2 ^ i) (xorAll (observed S i)))) = is.map (traceEntry S) :=
      List.map_congr_left fun k hk => traceEntry_setbit_other S i k _ (hne k hk)
    have hfold : ∀ (is : List Nat) (T : BitString), (∀ k ∈ is, i ≠ k) →
        is.foldl (fun T k => setbit T (2 ^ k) (xorAll (observed (setbit S (2 ^ i) (xorAll (observed S i))) k))) T =
          is.foldl (fun T k => setbit T (2 ^ k) (xorAll (observed S k))) T := by
      intro is
      induction is with
      | nil => intros; rfl
      | cons k ks ihk =>
        intro T hT
        simp only [List.foldl_cons]
        rw [observed_setbit_other S i k _ (hT k (by simp)), ihk _ (fun j hj => hT j (by simp [hj]))]
    unfold parityFrom
    simp only [ih hnd.2, List.foldl_cons, List.map_cons, traceEntry]
    rw [hfold is _ hne]
    exact congrArg _ (congrArg _ htr)

theorem writes_length (l : List Nat) (f : Nat → Bool) (S : BitString) :
    (l.foldl (fun T i => setbit T (2 ^ i) (f i)) S).length = S.length := by
  induction l generalizing S with
  | nil => rfl
  | cons i is ih => rw [List.foldl_cons, ih, setbit_length]

/-- Distinct writes at parity positions: each written position holds its value, every other one is unchanged. -/
theorem bit_writes (l : List Nat) (hl : l.Nodup) (f : Nat → Bool) (S : BitString) (q : Nat) :
    (∀ i ∈ l, q = 2 ^ i → q ≤ S.length → bit (l.foldl (fun T i => setbit T (2 ^ i) (f i)) S) q = f i) ∧
    ((∀ i ∈ l, q ≠ 2 ^ i) → bit (l.foldl (fun T i => setbit T (2 ^ i) (f i)) S) q = bit S q) := by
  induction l generalizing S with
  | nil => simp
  | cons k ks ih =>
    have hnd := List.nodup_cons.mp hl
    obtain ⟨ih1, ih2⟩ := ih hnd.2 (setbit S (2 ^ k) (f k))
    rw [List.foldl_cons]
    refine ⟨fun i hi hq hlen => ?_, fun hne => ?_⟩
    · rcases List.mem_cons.mp hi with rfl | hi
      · rw [ih2 (fun j hj he => ?_), bit_setbit, if_pos ⟨hq, Nat.two_pow_pos _, by omega⟩]
        have : i = j := Nat.pow_right_injective (Nat.le_refl 2) (hq.symm.trans he)
        exact hnd.1 (this ▸ hj)
      · exact ih1 i hi hq (by simpa using hlen)
    · rw [ih2 (fun i hi => hne i (by simp [hi])), bit_setbit, if_neg (fun h => hne k (by simp) h.1)]

theorem parity_trace (S : BitString) (r : Nat) : (parity S r).2 = (List.range r).map (traceEntry S) := by
  rw [parity, parityFrom_eq _ List.nodup_range]

@[simp] theorem parity_length (S : BitString) (r : Nat) : (parity S r).1.length = S.length := by
  rw [parity, parityFrom_eq _ List.nodup_range, writes_length]

/-- A parity position inside the word receives the XOR over its coverage set. -/
theorem bit_parity_at (S : BitString) (r i : Nat) (h : i < r) (hl : 2 ^ i ≤ S.length) :
    bit (parity S r).1 (2 ^ i) = xorAll (observed S i) := by
  rw [parity, parityFrom_eq _ List.nodup_range]
  exact (bit_writes _ List.nodup_range (fun i => xorAll (observed S i)) S (2 ^ i)).1 i (by simpa using h) rfl hl

/-- Every position that is no parity position keeps its bit. -/
theorem bit_parity_other (S : BitString) (r q : Nat) (h : ∀ i, i < r → q ≠ 2 ^ i) :
    bit (parity S r).1 q = bit S q := by
  rw [parity, parityFrom_eq _ List.nodup_range]
  exact (bit_writes _ List.nodup_range (fun i => xorAll (observed S i)) S q).2 (fun i hi => h i (by simpa using hi))

/-! ### Syndrome -/

theorem assemble_eq (S : BitString) (r : Nat) :
    assemble (syndromeTrace S r) < 2 ^ r ∧
      ∀ i, (assemble (syndromeTrace S r)).testBit i = (decide (i < r) && xorAll (observed S i)) := by
  induction r with
  | zero => simp [syndromeTrace, assemble]
  | succ r ih =>
    have hs : assemble (syndromeTrace S (r + 1)) =
        assemble (syndromeTrace S r) ||| ((xorAll (observed S r)).toNat <<< r) := by
      simp [assemble, syndromeTrace, List.range_succ, traceEntry]
    rw [hs]
    constructor
    · apply Nat.or_lt_two_pow
      · rw [Nat.pow_succ]; omega
      · cases xorAll (observed S r) <;> simp [Nat.shiftLeft_eq, Nat.pow_succ]
    · intro i
      rw [Nat.testBit_or, ih.2, Nat.testBit_shiftLeft]
      rcases Nat.lt_trichotomy i r with h | rfl | h
      · simp [h, show ¬ (r ≤ i) by omega, show i < r + 1 by omega]
      · cases xorAll (observed S i) <;> simp
      · have h1 : ¬ i < r := by omega
        have h2 : ¬ i < r + 1 := by omega
        have h3 : Nat.testBit 1 (i - r) = false := by
          rw [show (1 : Nat) = 2 ^ 0 from rfl, Nat.testBit_two_pow]
          exact decide_eq_false (by omega)
        cases xorAll (observed S r) <;> simp [h1, h2, h3]

/-- The ErrorPosition fits in `r` bits (43_syndrome_decoder.md R112). -/
theorem syndrome_lt (X : BitString) (r : Nat) : (syndrome X r).1 < 2 ^ r := (assemble_eq X r).1

/-- Bit `i` of the ErrorPosition is syndrome bit `s_i` (43_syndrome_decoder.md R112). -/
theorem syndrome_testBit (X : BitString) (r i : Nat) :
    (syndrome X r).1.testBit i = (decide (i < r) && xorAll (observed X i)) := (assemble_eq X r).2 i

end Sys2Proof.Machine
end

