-- ==== Sys2Proof/Laws/Commands.lean ====
section
/-! SUPPORT. What the whole commands answer, and the shared facts about checks, buses and flips they rest on. -/

namespace Sys2Proof.Machine

/-! The checks on a bit-string operand. -/

theorem operandFailure_empty {W} (len : BitVec (LW W)) (bits : BitVec W) (h : len.toNat = 0) :
    operandFailure len bits = some .empty := by
  simp [operandFailure, h]

theorem operandFailure_capacity {W} (len : BitVec (LW W)) (bits : BitVec W) (h : len.toNat ≠ 0)
    (h2 : W < len.toNat) : operandFailure len bits = some .capacity := by
  simp [operandFailure, h, h2]

/-! Buses. -/

/-- A bus is zero above the word it carries. -/
theorem toBus_getLsbD_beyond (W : Nat) (S : BitString) (p : Nat) (h : S.length < p) :
    (toBus W S).getLsbD (p - 1) = false := by
  by_cases hW : p ≤ W
  · rw [toBus_getLsbD W S p (by omega) hW, bit_beyond _ _ h]
  · exact BitVec.getLsbD_of_ge _ _ (by omega)

/-- Inverting position `pos` of a word inverts bit `pos - 1` of its bus. -/
theorem toBus_flip {W} (n pos : Nat) (b : BitVec W) (h1 : 1 ≤ pos) (h2 : pos ≤ n) (hs : strayBits n b = false) :
    toBus W (setbit (ofBus n b) pos (!bit (ofBus n b) pos)) = b ^^^ BitVec.twoPow W (pos - 1) := by
  apply BitVec.eq_of_getLsbD_eq
  intro k hk
  have e : k = (k + 1) - 1 := by omega
  rw [e, toBus_getLsbD _ _ _ (by omega) (by omega), bit_setbit, BitVec.getLsbD_xor, BitVec.getLsbD_twoPow]
  by_cases he : k + 1 = pos
  · subst he
    simp only [ofBus_length]
    rw [if_pos ⟨trivial, h1, h2⟩, bit_ofBus _ _ _ h1 h2]
    simp [hk]
  · rw [if_neg (fun h => he h.1)]
    have : pos - 1 ≠ k + 1 - 1 := by omega
    simp only [this]
    by_cases hkn : k + 1 ≤ n
    · rw [bit_ofBus _ _ _ (by omega) hkn]; simp
    · rw [bit_beyond _ _ (by simp; omega)]
      have : b.getLsbD (k + 1 - 1) = false := by
        by_contra hc
        have := (strayBits_iff n b).mpr ⟨k+1-1, by omega, by omega, by simpa using hc⟩
        simp [this] at hs
      rw [this]; simp

/-- Every number up to `W` fits a length register. -/
theorem lt_two_pow_LW (W n : Nat) (h : n ≤ W) : n < 2 ^ LW W := by
  have := lt_two_pow_bitlength W; show n < 2 ^ bitlength W; omega

/-! Positions. -/

theorem bitlength_le_self (n : Nat) : bitlength n ≤ n := by
  by_cases h0 : n = 0
  · subst h0; simp [bitlength]
  · have h3 := two_pow_le_of_bitlength n h0
    have h4 := Nat.lt_two_pow_self (n := bitlength n - 1)
    omega

/-- The index of a data position grows with the position. -/
theorem dataIndex_mono (p q : Nat) (hq : p ≤ q) : p - bitlength p ≤ q - bitlength q := by
  induction hq with
  | refl => omega
  | @step m _ ih =>
    have := bitlength_succ m
    have := bitlength_le_self m
    split at * <;> simp only [Nat.succ_eq_add_one] <;> omega

/-! Parity. -/

/-- PARITY leaves even parity over every coverage set whose parity position held 0. -/
theorem parity_even (S : BitString) (r i : Nat) (hi : i < r) (h0 : bit S (2 ^ i) = false) (hl : 2 ^ i ≤ S.length) :
    xorAll (observed (parity S r).1 i) = false := by
  have hobs : ∀ (l : List Nat) (T : BitString), (∀ k ∈ l, k ≠ i) →
      observed (l.foldl (fun T k => setbit T (2 ^ k) (xorAll (observed S k))) T) i = observed T i := by
    intro l
    induction l with
    | nil => intros; rfl
    | cons k ks ih =>
      intro T hT
      rw [List.foldl_cons, ih _ (fun j hj => hT j (by simp [hj])), observed_setbit_other _ _ _ _ (hT k (by simp))]
  rw [parity, parityFrom_eq _ List.nodup_range]
  simp only
  obtain ⟨d, rfl⟩ : ∃ d, r = i + 1 + d := ⟨r - (i+1), by omega⟩
  rw [List.range_add, List.range_succ, List.foldl_append, List.foldl_append]
  rw [hobs]
  · simp only [List.foldl_cons, List.foldl_nil]
    have h1 := hobs (List.range i) S (fun k hk => by simp at hk; omega)
    have hT : ((List.range i).foldl (fun T k => setbit T (2 ^ k) (xorAll (observed S k))) S).length = S.length :=
      writes_length _ (fun k => xorAll (observed S k)) S
    have hb : bit ((List.range i).foldl (fun T k => setbit T (2 ^ k) (xorAll (observed S k))) S) (2 ^ i) = false := by
      rw [(bit_writes (List.range i) List.nodup_range (fun k => xorAll (observed S k)) S (2^i)).2, h0]
      intro k hk he
      have := Nat.pow_right_injective (Nat.le_refl 2) he
      simp at hk; omega
    rw [xorAll_observed_setbit _ _ _ _ (Nat.two_pow_pos i) (by rw [hT]; exact hl), h1, hb]
    simp
  · intro k hk; simp at hk; omega

/-! The commands. -/

/-- ENCODE succeeds with exactly the codeword and trace PARITY computes from the interleaved word. -/
theorem encodeAbstract_ok_iff (D : BitString) (e : EncodeOk) :
    encodeAbstract D = .ok e ↔ ∃ S, interleave D e.r = .ok S ∧ e = ⟨(parity S e.r).1, e.r, (parity S e.r).2⟩ := by
  unfold encodeAbstract
  cases h : calcR D.length with
  | error c =>
    simp
    intro S hS
    have := ((interleave_eq_ok_iff _ _ _).mp hS).1
    rw [h] at this; cases this
  | ok r =>
    have hS := (interleave_eq_ok_iff D r _).mpr ⟨h, rfl⟩
    simp only [hS]
    constructor
    · intro he; cases he; exact ⟨_, hS, rfl⟩
    · rintro ⟨S, h1, h2⟩
      have h3 := ((interleave_eq_ok_iff _ _ _).mp h1).1
      rw [h] at h3; cases h3
      rw [hS] at h1; cases h1
      rw [h2]

/-- DECODE of consistent operands, by the syndrome. -/
theorem decodeAbstract_consistent (X : BitString) (r : Nat) (h : rconsistent X.length r = true) :
    ((syndrome X r).1 = 0 → decodeAbstract X r = .ok ⟨0, (syndrome X r).2, none⟩) ∧
    (1 ≤ (syndrome X r).1 → (syndrome X r).1 ≤ X.length →
      decodeAbstract X r = .ok ⟨(syndrome X r).1, (syndrome X r).2, some (flipAt X (syndrome X r).1)⟩) ∧
    (X.length < (syndrome X r).1 →
      decodeAbstract X r = .error (.uncorrectableError (syndrome X r).1 (syndrome X r).2)) := by
  unfold decodeAbstract classify correct
  simp only [h, if_true]
  refine ⟨fun h0 => by simp [h0], fun h1 h2 => ?_, fun h1 => ?_⟩
  · have : (syndrome X r).1 ≠ 0 := by omega
    have h3 : ¬ X.length < (syndrome X r).1 := by omega
    simp [this, h2, h3]; rfl
  · have : (syndrome X r).1 ≠ 0 := by omega
    simp [this, Nat.not_le.mpr h1]

theorem decodeAbstract_inconsistent (X : BitString) (r : Nat) (h : rconsistent X.length r = false) :
    decodeAbstract X r = .error (.invalidInput .rMismatch) := by
  simp [decodeAbstract, h]

/-! Flips. -/

@[simp] theorem flipAll_length (C : BitString) (E : List Nat) : (flipAll C E).length = C.length := by
  unfold flipAll
  induction E generalizing C with
  | nil => rfl
  | cons p E ih => rw [List.foldl_cons, ih, flipAt_length]

/-- The syndrome is linear in flips. -/
theorem syndrome_flipAll (C : BitString) (r : Nat) (E : List Nat)
    (hE : ∀ p ∈ E, 1 ≤ p ∧ p ≤ C.length) (hlt : C.length < 2 ^ r) :
    (syndrome (flipAll C E) r).1 = (syndrome C r).1 ^^^ E.foldl (fun a p => a ^^^ p) 0 := by
  have hfold : ∀ (E : List Nat) (a : Nat), E.foldl (fun a p => a ^^^ p) a = a ^^^ E.foldl (fun a p => a ^^^ p) 0 := by
    intro E
    induction E with
    | nil => intro a; simp
    | cons p E ih => intro a; simp only [List.foldl_cons]; rw [ih (a ^^^ p), ih (0 ^^^ p)]; simp [Nat.xor_assoc]
  induction E generalizing C with
  | nil => simp [flipAll]
  | cons p E ih =>
    have hp := hE p (by simp)
    have h1 := ih (flipAt C p) (fun q hq => by rw [flipAt_length]; exact hE q (by simp [hq]))
      (by rw [flipAt_length]; exact hlt)
    have : (syndrome (flipAt C p) r).1 = (syndrome C r).1 ^^^ p := by
      apply Nat.eq_of_testBit_eq
      intro i
      rw [Nat.testBit_xor, syndrome_testBit, syndrome_testBit, xorAll_observed_flip _ _ _ hp.1 hp.2]
      by_cases hi : i < r
      · simp [hi]
      · have : p.testBit i = false := by
          apply Nat.testBit_lt_two_pow
          have : 2 ^ r ≤ 2 ^ i := Nat.pow_le_pow_right (by omega) (by omega)
          omega
        simp [hi, this]
    rw [show flipAll C (p :: E) = flipAll (flipAt C p) E from rfl, h1, this, List.foldl_cons, hfold E (0 ^^^ p)]
    simp [Nat.xor_assoc]

/-- Flipping twice gives the word back. -/
theorem flipAt_flipAt (X : BitString) (p : Nat) : flipAt (flipAt X p) p = X := by
  by_cases h : 1 ≤ p ∧ p ≤ X.length
  · apply word_ext (by simp)
    intro q h1 h2
    unfold flipAt
    rw [bit_setbit, bit_setbit, bit_setbit]
    by_cases he : q = p
    · subst he; simp [h]
    · simp [he]
  · unfold flipAt setbit
    by_cases h0 : p = 0
    · simp [h0]
    · have : X.length ≤ p - 1 := by omega
      simp [h0, List.set_eq_of_length_le, this]

end Sys2Proof.Machine
end

