-- ==== Sys2Proof/Laws/PerInstr.lean ====
section
/-! SUPPORT. Statements made instruction by instruction (LAWS.json "per_instruction"). -/

namespace Sys2Proof.Laws.Format

/-- The operations that a request word selects; the others are selected by a phase code (30_encoding.md R50). -/
def isCommand : Instr → Bool
  | .encode _ _ _ => true
  | .decode _ _ _ => true
  | .calcr => false
  | .interleave => false
  | .parity => false
  | .syndrome => false
  | .correct => false

/-- The encoder gives a command a request word and a component operation a phase code that the decoder accepts. -/
def Statement (i : Instr) : Prop :=
  ∀ W, match encodeWord W i with
    | .req _ => isCommand i = true
    | .phase code => isCommand i = false ∧ decodePhase code = .ok i

theorem encode (len r bits : Nat) : Statement (.encode len r bits) := fun _ => rfl
theorem decode (len r bits : Nat) : Statement (.decode len r bits) := fun _ => rfl
theorem calcr : Statement .calcr := fun _ => ⟨rfl, rfl⟩
theorem interleave : Statement .interleave := fun _ => ⟨rfl, rfl⟩
theorem parity : Statement .parity := fun _ => ⟨rfl, rfl⟩
theorem syndrome : Statement .syndrome := fun _ => ⟨rfl, rfl⟩
theorem correct : Statement .correct := fun _ => ⟨rfl, rfl⟩

end Sys2Proof.Laws.Format
end

