-- ==== Sys2Proof/Laws/Traces.lean ====
section
/-! SUPPORT. The port form of a trace: which bits the masks of a trace entry have (spec/30_encoding.md R61). -/

namespace Sys2Proof.Machine

/-- A mask has bit `k` exactly when position `k + 1` is listed (positions count from 1). -/
theorem maskOf_getLsbD (W : Nat) (ps : List Nat) (h : ∀ p ∈ ps, 1 ≤ p) (k : Nat) (hk : k < W) :
    (maskOf W ps).getLsbD k = decide (k + 1 ∈ ps) := by
  induction ps with
  | nil => simp [maskOf]
  | cons p ps ih =>
    have hp := h p (by simp)
    rw [maskOf, BitVec.getLsbD_or, ih (fun q hq => h q (by simp [hq])), BitVec.getLsbD_twoPow]
    by_cases he : k + 1 = p
    · simp [he, show p - 1 = k by omega, hk]
    · have : p - 1 ≠ k := by omega
      simp [he, this]

theorem cov_pos (n i p : Nat) (h : p ∈ cov n i) : 1 ≤ p := ((mem_cov n i p).mp h).1

/-- `t_cov[i]` has the bits of the coverage set. -/
theorem coverMask_getLsbD (W : Nat) (S : BitString) (i k : Nat) (hk : k < W) :
    (coverMask W (traceEntry S i)).getLsbD k = decide (k + 1 ∈ cov S.length i) :=
  maskOf_getLsbD W _ (fun p hp => cov_pos _ _ p hp) k hk

/-- `t_obs[i]` has the observed bits at the covered positions. -/
theorem observedMask_getLsbD (W : Nat) (S : BitString) (i k : Nat) (hk : k < W) :
    (observedMask W (traceEntry S i)).getLsbD k = (bit S (k + 1) && decide (k + 1 ∈ cov S.length i)) := by
  have hmem : ∀ p, p ∈ (((cov S.length i).zip (observed S i)).filter fun q => q.2).map (fun q => q.1) ↔
      p ∈ cov S.length i ∧ bit S p = true := by
    intro p
    simp only [observed, List.zip_map_right, List.mem_map, List.mem_filter, Prod.exists, Prod.map]
    constructor
    · rintro ⟨a, b, ⟨⟨c, d, hz, he⟩, hb⟩, rfl⟩
      have hcd : c = d ∧ c ∈ cov S.length i := by
        rw [List.zip_eq_zipWith, List.zipWith_self] at hz
        obtain ⟨x, hx, hx'⟩ := List.mem_map.mp hz
        cases hx'
        exact ⟨rfl, hx⟩
      obtain ⟨rfl, hc⟩ := hcd
      cases he
      exact ⟨hc, hb⟩
    · rintro ⟨hc, hb⟩
      refine ⟨p, true, ⟨⟨p, p, ?_, by simp [hb]⟩, rfl⟩, rfl⟩
      rw [List.zip_eq_zipWith, List.zipWith_self]
      exact List.mem_map.mpr ⟨p, hc, rfl⟩
  rw [observedMask]
  simp only [traceEntry]
  rw [maskOf_getLsbD W _ (fun p hp => cov_pos _ _ p ((hmem p).mp hp).1) k hk]
  have := hmem (k + 1)
  cases hb : bit S (k + 1) <;> simp_all

/-- Entry `i` of a trace in port form: that of the trace below its length, zero beyond. -/
theorem portTrace_range {α : Type} (W : Nat) (zero : α) (f : TraceEntry → α) (S : BitString) (r i : Nat)
    (h : i < RMAX W) :
    (portTrace W zero f ((List.range r).map (traceEntry S)))[i] = if i < r then f (traceEntry S i) else zero := by
  simp only [portTrace, Vector.getElem_ofFn]
  split
  · rename_i hi
    simp [hi]
  · rename_i hi
    simp [hi]

end Sys2Proof.Machine
end

