-- ==== Sys2Proof/Tests/Slice0.lean ====
section
/-! SUPPORT. Tests of the model, expected values taken from spec/95_test_vectors.md and the encodings of
spec/30_encoding.md, and for every obligation with hypotheses a witness that meets them (`test_witness_<Name>`). -/

namespace Sys2Proof.Machine.Tests

/-- The bit string whose text is the binary numeral `v` of `n` digits. -/
def word (n v : Nat) : BitString := ofBus n (BitVec.ofNat 24 v)

/-- Pins on which a request is presented. -/
def request (op len r bits : Nat) : PortIn 16 :=
  { PortIn.quiet 16 with
    reqValid := true
    reqOp := BitVec.ofNat _ op
    reqLen := BitVec.ofNat _ len
    reqR := BitVec.ofNat _ r
    reqBits := BitVec.ofNat _ bits }

/-- Registers as after power-on, but in phase `p`. -/
def inP (p : Phase) : Regs 16 := { Regs.reset 16 with phase := p }

/-- A predicate on the next state. -/
def nextIs (o : Host.Outcome State Fault Refusal) (f : State → Bool) : Bool :=
  match o with
  | .next t => f t
  | .fault _ => false
  | .refused _ => false

/-- ENCODE of `bits` of length `len`, accepted, and then counted, interleaved and finished. -/
def encAccepted (len bits : Nat) : Regs 16 :=
  acceptEncode (BitVec.ofNat _ len) 0 (BitVec.ofNat _ bits) (Regs.reset 16)
def encCounted (len bits : Nat) : Regs 16 := countParityBits (encAccepted len bits)
def encPlaced (len bits : Nat) : Regs 16 := interleaveStep (encCounted len bits)
def encDone (len bits : Nat) : Regs 16 := parityStep (encPlaced len bits)

/-- DECODE of `bits` of length `len` with `r`, accepted, then with its syndrome, then corrected. -/
def decAccepted (len r bits : Nat) : Regs 16 :=
  acceptDecode (BitVec.ofNat _ len) (BitVec.ofNat _ r) (BitVec.ofNat _ bits) (Regs.reset 16)
def decLocated (len r bits : Nat) : Regs 16 := syndromeStep (decAccepted len r bits)
def decCorrected (len r bits : Nat) : Regs 16 := correctStep (decLocated len r bits)

/-- A state of the instance with no pins to come. -/
def st (g : Regs 16) : State := ⟨16, [], g⟩

/-! ### Well-formedness refuses an ill-formed term of each check (30_encoding.md R54, `W = 16`, `LW = 5`) -/

theorem test_wf_encode_boundary : (Instr.encode 31 31 65535).wf 16 = true := by decide
theorem test_wf_encode_len : (Instr.encode 32 0 0).wf 16 = false := by decide
theorem test_wf_encode_r : (Instr.encode 7 32 0).wf 16 = false := by decide
theorem test_wf_encode_bits : (Instr.encode 7 0 65536).wf 16 = false := by decide
theorem test_wf_decode_boundary : (Instr.decode 31 31 65535).wf 16 = true := by decide
theorem test_wf_decode_len : (Instr.decode 32 4 0).wf 16 = false := by decide
theorem test_wf_decode_r : (Instr.decode 11 32 0).wf 16 = false := by decide
theorem test_wf_decode_bits : (Instr.decode 11 4 65536).wf 16 = false := by decide
theorem test_wf_components : [Instr.calcr, .interleave, .parity, .syndrome, .correct].all (Instr.wf 16) = true := by
  decide

/-! ### Words written out from the encodings -/

/-- 95_test_vectors.md section 3.8: `0 00111 00000 0000000001011001`. -/
theorem test_decode_encode_word : decodeTableWord 32 0x0E00059 = some (.encode 7 0 0x59) := by decide
/-- The same: `1 01011 00100 0000010101011110`. -/
theorem test_decode_decode_word : decodeTableWord 32 0x564055E = some (.decode 11 4 0x55E) := by decide
/-- 95_test_vectors.md section 4, line 2. -/
theorem test_decode_decode_word' : decodeTableWord 32 0x564054E = some (.decode 11 4 0x54E) := by decide
/-- The table's one-bit rows: `req_op` alone. -/
theorem test_decode_req_op :
    decodeTableWord 8 0 = some (.encode 0 0 0) ∧ decodeTableWord 8 1 = some (.decode 0 0 0) := by decide
/-- 30_encoding.md R59: the phase codes of the components. -/
theorem test_decode_phases :
    [1, 2, 3, 5, 7].map (decodeTableWord 4) =
      [some .calcr, some .interleave, some .parity, some .syndrome, some .correct] := by decide
/-- The same codes as whole bytes, where they are told from `req_op`. -/
theorem test_decode_phase_bytes :
    [2, 3, 5, 7].map (decodeTableWord 8) = [some .interleave, some .parity, some .syndrome, some .correct] := by decide
/-- 30_encoding.md R59: Idle and the terminal phases perform no component; 11 to 15 are never entered. -/
theorem test_decode_rejects :
    [0, 4, 6, 8, 9, 10, 11, 12, 13, 14, 15].map (decodeTableWord 4) = List.replicate 11 none := by decide
theorem test_reject_names :
    decodePhase 4 = .error (.noComponentOperation 4) ∧ decodePhase 11 = .error (.neverEntered 11) := ⟨rfl, rfl⟩
/-- What is placed is run: the request is accepted by the very next step (95_test_vectors.md section 4). -/
theorem test_placed_request_runs :
    nextIs (step (State.reset.withFetchWord 32 0x0E00059))
      (fun t => t.regs.phase == .countParityBits && t.regs.wM.toNat == 7 && t.regs.qBits.toNat == 0x59) = true := by
  decide
theorem test_placed_phase_runs :
    nextIs (step (State.reset.withFetchWord 4 1)) (fun t => t.regs.stCause == some .empty) = true := by decide
/-- 30_encoding.md R51: the two characters are ASCII 0x30 and 0x31. -/
theorem test_characters : '0'.toNat = 0x30 ∧ '1'.toNat = 0x31 := by decide

/-! ### One step of each operation, from 95_test_vectors.md sections 3.8, 4 and 5 -/

theorem test_encode_accepts : nextIs (exec (.encode 7 0 0x59) (st (inP .idle))) (fun t =>
    t.regs.phase == .countParityBits && t.regs.qOp.toNat == 0 && t.regs.qLen.toNat == 7 &&
      t.regs.qBits.toNat == 0x59 && t.regs.wM.toNat == 7) = true := by decide
/-- "bit 7 is set above length 7". -/
theorem test_encode_malformed : nextIs (exec (.encode 7 0 0xD9) (st (inP .idle))) (fun t =>
    t.regs.phase == .invalidInput && t.regs.stCause == some .malformed) = true := by decide
theorem test_decode_accepts : nextIs (exec (.decode 11 4 0x55E) (st (inP .idle))) (fun t =>
    t.regs.phase == .computeSyndrome && t.regs.qOp.toNat == 1 && t.regs.wN.toNat == 11 && t.regs.wR.toNat == 4) = true := by
  decide
/-- "16 is a power of two". -/
theorem test_decode_mismatch : nextIs (exec (.decode 16 5 0xFFFF) (st (inP .idle))) (fun t =>
    t.regs.phase == .invalidInput && t.regs.stCause == some .rMismatch) = true := by decide
theorem test_calcr_counts : nextIs (exec .calcr (st (encAccepted 7 0x59))) (fun t =>
    t.regs.phase == .interleave && t.regs.wR.toNat == 4 && t.regs.wN.toNat == 11) = true := by decide
/-- "`12 + 5 = 17 > 16`, raised by the CountParityBits step". -/
theorem test_calcr_capacity : nextIs (exec .calcr (st (encAccepted 12 0xB38))) (fun t =>
    t.regs.phase == .invalidInput && t.regs.stCause == some .capacity && t.regs.wN.toNat == 0) = true := by decide
theorem test_interleave_places : nextIs (exec .interleave (st (encCounted 7 0x59))) (fun t =>
    t.regs.phase == .computeParity && t.regs.wSeq.toNat == 0x544) = true := by decide
theorem test_parity_writes : nextIs (exec .parity (st (encPlaced 7 0x59))) (fun t =>
    t.regs.phase == .encoded && t.regs.wSeq.toNat == 0x54E &&
      t.regs.tCov.toList.map BitVec.toNat == [0x555, 0x666, 0x78, 0x780, 0] &&
      t.regs.tObs.toList.map BitVec.toNat == [0x544, 0x444, 0x40, 0x500, 0] &&
      t.regs.tVal.toList == [false, true, true, false, false]) = true := by decide
theorem test_syndrome_locates : nextIs (exec .syndrome (st (decAccepted 11 4 0x55E))) (fun t =>
    t.regs.phase == .singleBitError && t.regs.wPos.toNat == 5 &&
      t.regs.tObs.toList.map BitVec.toNat == [0x554, 0x446, 0x58, 0x500, 0]) = true := by decide
theorem test_syndrome_uncorrectable : nextIs (exec .syndrome (st (decAccepted 11 4 0x5C6))) (fun t =>
    t.regs.phase == .uncorrectableError && t.regs.wPos.toNat == 12 && t.regs.wOut.toNat == 0x5C6) = true := by decide
theorem test_correct_inverts : nextIs (exec .correct (st (decLocated 11 4 0x55E))) (fun t =>
    t.regs.phase == .corrected && t.regs.wOut.toNat == 0x54E && t.regs.stCorr) = true := by decide

/-! ### The functions (95_test_vectors.md sections 3.1 to 3.7) -/

theorem test_calcR_steps :
    [1, 2, 4, 5, 11, 12, 26, 27, 57, 58, 1013, 1014].map calcR =
      [2, 3, 3, 4, 4, 5, 5, 6, 6, 7, 10, 11].map Except.ok := by decide
/-- Outside the contract: "`PARITY("111", 2)` gives `"100"`". -/
theorem test_parity_literal : (parity (word 3 0b111) 2).1 = word 3 0b100 := by decide
theorem test_encode_17 :
    (encodeAbstract (word 12 0b101010101010)).toOption.map EncodeOk.codeword = some (word 17 0b11010101011010011) := by
  decide
theorem test_text_malformed :
    parse ['1', '0', ' ', '1'] = .error .malformed ∧ parse [] = .error .empty := ⟨rfl, rfl⟩
/-- Section 3.2; and a count that is not CALCR(7) is refused (41_interleaver.md R94). -/
theorem test_interleave_text :
    interleaveText ['1', '0', '1', '1', '0', '0', '1'] 4 =
        .ok ['1', '0', '1', '0', '1', '0', '0', '0', '1', '0', '0'] ∧
      (interleaveText ['1', '0', '1', '1', '0', '0', '1'] 3).toOption = none := by decide
theorem test_double_flip_miscorrected :
    (decodeAbstract (word 11 0b10101001101) 4).toOption.map DecodeOk.corrected = some (some (word 11 0b10101001001)) := by
  decide

/-! ### Witnesses: for every obligation with hypotheses, values that meet them, clause by clause -/

theorem test_witness_DecodeInvertsEncode :
    (Instr.encode 31 0 65535).wf 16 = true ∧ (Instr.decode 11 4 0x54E).wf 16 = true ∧ Instr.correct.wf 3 = true := by
  decide

theorem test_witness_EncodeInvertsDecode :
    decodeWord (.req (0x564054E : BitVec (reqWidth 16)) : InstrWord 16) = .ok (.decode 11 4 0x54E) ∧
      decodeWord (.phase 7 : InstrWord 16) = .ok .correct := by decide

theorem test_witness_RequestSelectsCommand :
    decodeWord (.req (0x0E00059 : BitVec (reqWidth 16)) : InstrWord 16) = .ok (.encode 7 0 0x59) ∧
      decodeWord (.req (0x564054E : BitVec (reqWidth 16)) : InstrWord 16) = .ok (.decode 11 4 0x54E) := by decide

theorem test_witness_StepRunsDecodedInstruction :
    let s : State := ⟨16, [request 1 11 4 0x54E], inP .idle⟩
    let s' : State := st (inP .computeParity)
    ((pins s).rst = false ∧ s.regs.phase = .idle ∧ (pins s).reqValid = true ∧
      decodeWord (.req (portWord (pins s))) = .ok (.decode 11 4 0x54E)) ∧
    ((pins s').rst = false ∧ isWorking s'.regs.phase = true ∧
      decodeWord (.phase (phaseCode s'.regs.phase) : InstrWord 16) = .ok .parity) := by decide

theorem test_witness_PlacedWordIsRun :
    decodeWord (.req (0x0E00059 : BitVec (reqWidth 16)) : InstrWord State.reset.W) = .ok (.encode 7 0 0x59) ∧
      decodeWord (.phase 5 : InstrWord State.reset.W) = .ok .syndrome := by decide

theorem test_witness_ResetInputWinsOverEveryStep :
    ({ request 0 7 0 0x59 with rst := true, rspAck := true } : PortIn 16).rst = true := by decide

theorem test_witness_HandshakeFollowsPhase :
    ((inP .idle).phase = .idle ∧ Requests (request 0 7 0 0x59)) ∧
    ((inP .interleave).phase ≠ .idle ∧ (request 0 7 0 0x59).rst = (PortIn.quiet 16).rst ∧
      (request 0 7 0 0x59).rspAck = (PortIn.quiet 16).rspAck) ∧
    ((inP .idle).phase = .idle ∧ (PortIn.quiet 16).rst = false ∧ (PortIn.quiet 16).reqValid = false) ∧
    (rspValid (inP .noError) = true ∧ ({ request 0 7 0 0x59 with rspAck := true } : PortIn 16).rst = false ∧
      ({ request 0 7 0 0x59 with rspAck := true } : PortIn 16).rspAck = true) ∧
    rspValid (inP .computeSyndrome) = false := by
  unfold Requests; decide

theorem test_witness_TerminalPhaseIsHeld :
    rspValid (encDone 7 0x59) = true ∧ ∀ p ∈ [request 1 11 4 0x54E], Undisturbing p := by
  unfold Undisturbing; decide

/-- One step along an edge out of each phase that is left, from a state that meets the invariant. -/
theorem test_witness_PhaseMovesAlongEdges :
    (Inv (st (inP .idle)) ∧ step (st (inP .idle)) = .next (st (inP .idle)) ∧ (pins (st (inP .idle))).rst = false) ∧
    (Inv (st (encAccepted 7 0x59)) ∧ step (st (encAccepted 7 0x59)) = .next (st (encCounted 7 0x59)) ∧
      (encAccepted 7 0x59).phase = .countParityBits) ∧
    (Inv (st (encCounted 7 0x59)) ∧ step (st (encCounted 7 0x59)) = .next (st (encPlaced 7 0x59)) ∧
      (encCounted 7 0x59).phase = .interleave) ∧
    (Inv (st (encPlaced 7 0x59)) ∧ step (st (encPlaced 7 0x59)) = .next (st (encDone 7 0x59)) ∧
      (encPlaced 7 0x59).phase = .computeParity) ∧
    (Inv (st (decAccepted 11 4 0x55E)) ∧ step (st (decAccepted 11 4 0x55E)) = .next (st (decLocated 11 4 0x55E)) ∧
      (decAccepted 11 4 0x55E).phase = .computeSyndrome) ∧
    (Inv (st (decLocated 11 4 0x55E)) ∧ step (st (decLocated 11 4 0x55E)) = .next (st (decCorrected 11 4 0x55E)) ∧
      (decLocated 11 4 0x55E).phase = .singleBitError) ∧
    (Inv (st (encDone 7 0x59)) ∧ step (st (encDone 7 0x59)) = .next (st (encDone 7 0x59)) ∧
      rspValid (encDone 7 0x59) = true) :=
  ⟨⟨⟨by decide, trivial⟩, rfl, rfl⟩,
    ⟨⟨by decide, rfl, rfl, rfl⟩, rfl, rfl⟩,
    ⟨⟨by decide, ⟨rfl, rfl, rfl⟩, rfl, rfl, by decide⟩, rfl, rfl⟩,
    ⟨⟨by decide, ⟨⟨rfl, rfl, rfl⟩, rfl, rfl, by decide⟩, _, rfl, rfl⟩, rfl, rfl⟩,
    ⟨⟨by decide, rfl, rfl, rfl, rfl, rfl⟩, rfl, rfl⟩,
    ⟨⟨by decide, ⟨rfl, rfl, rfl, rfl, rfl⟩, by decide, by decide, by decide, rfl, rfl, rfl⟩, rfl, rfl⟩,
    ⟨by decide, rfl, by decide, rfl, by decide, by decide⟩, rfl, rfl⟩

theorem test_witness_LatchesKeepAcceptedRequest :
    (step ⟨16, [request 0 7 0 0x59], inP .idle⟩ = .next ⟨16, [], encAccepted 7 0x59⟩ ∧
      (inP .idle).phase = .idle ∧ Requests (request 0 7 0 0x59)) ∧
    (step ⟨16, [request 0 7 0 0x59], encAccepted 12 0xB38⟩ = .next ⟨16, [], encCounted 12 0xB38⟩ ∧
      (request 0 7 0 0x59).rst = false ∧
      ¬ ((encAccepted 12 0xB38).phase = .idle ∧ Requests (request 0 7 0 0x59))) :=
  ⟨⟨rfl, rfl, rfl, rfl⟩, rfl, rfl, fun h => absurd h.1 (by decide)⟩

/-- The pins of the clauses "this is what the step does", in the accept statements and in those of the components. -/
theorem test_witness_step_clauses :
    (Requests (request 0 7 0 0x59) ∧ (request 0 7 0 0x59).reqOp = 0#1) ∧
    (Requests (request 1 11 4 0x54E) ∧ (request 1 11 4 0x54E).reqOp = 1#1) ∧ (request 1 11 4 0x54E).rst = false := by
  unfold Requests; decide

/-- Each check at its boundary: length 0; 17, the least length above `W`; bit 15 above length 15; length 16 and 1. -/
theorem test_witness_EncodeRequestIsAccepted :
    (inP .idle).phase = .idle ∧
    (0 : BitVec (LW 16)).toNat = 0 ∧
    ((17 : BitVec (LW 16)).toNat ≠ 0 ∧ 16 < (17 : BitVec (LW 16)).toNat) ∧
    ((15 : BitVec (LW 16)).toNat ≠ 0 ∧ (15 : BitVec (LW 16)).toNat ≤ 16 ∧
      bitAbove (15 : BitVec (LW 16)).toNat (0x8000 : BitVec 16)) ∧
    ((16 : BitVec (LW 16)).toNat ≠ 0 ∧ (16 : BitVec (LW 16)).toNat ≤ 16 ∧
      ¬ bitAbove (16 : BitVec (LW 16)).toNat (0xFFFF : BitVec 16)) ∧
    ((1 : BitVec (LW 16)).toNat ≠ 0 ∧ (1 : BitVec (LW 16)).toNat ≤ 16 ∧
      ¬ bitAbove (1 : BitVec (LW 16)).toNat (0x0001 : BitVec 16)) :=
  ⟨rfl, by decide, by decide, ⟨by decide, by decide, 15, by decide⟩,
    ⟨by decide, by decide, fun ⟨k, h1, h2, _⟩ => Nat.lt_irrefl 16 (Nat.lt_of_le_of_lt h1 h2)⟩,
    by decide, by decide, fun ⟨k, h1, h2, h3⟩ => by
      have : ∀ k, k < 16 → 1 ≤ k → (0x0001 : BitVec 16).getLsbD k = false := by decide
      rw [this k h2 h1] at h3; cases h3⟩

/-- Length 16 with `r = 5` is a power of two; length 3, the least valid one, with `r = 2`. The other clauses are those of
`test_witness_EncodeRequestIsAccepted`. -/
theorem test_witness_DecodeRequestIsAccepted :
    (¬ ∃ m, 1 ≤ m ∧ m + (5 : BitVec (LW 16)).toNat = (16 : BitVec (LW 16)).toNat ∧
      calcR m = .ok (5 : BitVec (LW 16)).toNat) ∧
    (∃ m, 1 ≤ m ∧ m + (2 : BitVec (LW 16)).toNat = (3 : BitVec (LW 16)).toNat ∧
      calcR m = .ok (2 : BitVec (LW 16)).toNat) ∧
    ¬ bitAbove (3 : BitVec (LW 16)).toNat (0x0007 : BitVec 16) :=
  ⟨fun ⟨m, _, h, hc⟩ => by
      have : m = 11 := by have h : m + 5 = 16 := h; omega
      subst this; exact absurd hc (by decide),
    ⟨1, by decide⟩, fun ⟨k, h1, h2, h3⟩ => by
      have : ∀ k, k < 16 → 3 ≤ k → (0x0007 : BitVec 16).getLsbD k = false := by decide
      rw [this k h2 h1] at h3; cases h3⟩

/-- 11 data bits just fit (`11 + 4 = 15`), 12 do not (`12 + 5 = 17`). -/
theorem test_witness_CalcrStepCountsParityBits :
    ((inP .countParityBits).phase = .countParityBits ∧ (inP .countParityBits).wM.toNat = 0) ∧
    ((encAccepted 11 0x59C).phase = .countParityBits ∧ (encAccepted 11 0x59C).wM.toNat = 11 ∧ 11 + 4 + 1 ≤ 2 ^ 4 ∧
      (∀ r', r' < 4 → 2 ^ r' < 11 + r' + 1) ∧ 11 + 4 ≤ 16) ∧
    ((encAccepted 12 0xB38).phase = .countParityBits ∧ (encAccepted 12 0xB38).wM.toNat = 12 ∧ 12 + 5 + 1 ≤ 2 ^ 5 ∧
      (∀ r', r' < 5 → 2 ^ r' < 12 + r' + 1) ∧ 16 < 12 + 5) := by decide

theorem test_witness_InterleaveStepPlacesData :
    ((encCounted 1 1).phase = .interleave ∧ CountedInv (encCounted 1 1)) ∧
    ((encCounted 11 0x59C).phase = .interleave ∧ CountedInv (encCounted 11 0x59C)) :=
  ⟨⟨rfl, ⟨rfl, rfl, rfl⟩, rfl, rfl, by decide⟩, rfl, ⟨rfl, rfl, rfl⟩, rfl, rfl, by decide⟩

theorem test_witness_ParityStepWritesCodeword :
    ((encPlaced 11 0x59C).phase = .computeParity ∧ (encPlaced 11 0x59C).wN.toNat ≤ 16 ∧
      (encPlaced 11 0x59C).wR.toNat = bitlength (encPlaced 11 0x59C).wN.toNat) ∧
    ((inP .computeParity).wN.toNat ≤ 16 ∧ (inP .computeParity).wR.toNat = bitlength (inP .computeParity).wN.toNat) := by
  decide

/-- The exits: position 0; 1 and `n = 11`; 12. -/
theorem test_witness_SyndromeStepTakesItsExit :
    [(0x54E, 0), (0x54F, 1), (0x14E, 11), (0x5C6, 12)].all (fun q =>
      decide ((decAccepted 11 4 q.1).phase = .computeSyndrome) &&
      decide ((decAccepted 11 4 q.1).wN = (decAccepted 11 4 q.1).qLen) &&
      decide ((decAccepted 11 4 q.1).wN.toNat ≤ 16) &&
      decide ((decAccepted 11 4 q.1).wR.toNat = bitlength (decAccepted 11 4 q.1).wN.toNat) &&
      nextIs (exec .syndrome (st (decAccepted 11 4 q.1))) (fun t => t.regs.wPos.toNat == q.2)) = true := by decide

/-- Positions 1 and `n` inside; 0 and `n + 1` outside. -/
theorem test_witness_CorrectStepInvertsOneBit :
    ([(0x54F, 1), (0x14E, 11)].all (fun q =>
      decide ((decLocated 11 4 q.1).phase = .singleBitError) && decide ((decLocated 11 4 q.1).wPos.toNat = q.2) &&
      decide ((decLocated 11 4 q.1).qLen.toNat = 11) &&
      decide (operandFailure (decLocated 11 4 q.1).qLen (decLocated 11 4 q.1).qBits = none)) = true) ∧
    ((inP .singleBitError).phase = .singleBitError ∧ (inP .singleBitError).wPos.toNat = 0) ∧
    (let g := { decLocated 11 4 0x14E with wPos := 12 };
      g.phase = .singleBitError ∧ g.qLen.toNat < g.wPos.toNat) := by decide

theorem test_witness_OperationOutsideItsPhaseDoesNothing :
    (st (inP .encoded)).regs.phase ≠ .idle ∧
      [Phase.countParityBits, .interleave, .computeParity, .computeSyndrome, .singleBitError].all
        (fun p => decide ((st (inP .idle)).regs.phase ≠ p)) = true := by decide

theorem test_witness_RegistersWrittenOnlyByTheirSteps :
    exec .calcr (st (encAccepted 7 0x59)) = .next (st (encCounted 7 0x59)) ∧
      isTerminal (encCounted 7 0x59).phase = false ∧
      exec .syndrome (st (decAccepted 11 4 0x55E)) = .next (st (decLocated 11 4 0x55E)) :=
  ⟨rfl, rfl, rfl⟩

/-- A failing component (CAPACITY of the codeword), ENCODE (EMPTY) and DECODE (R_MISMATCH). -/
theorem test_witness_FailureEntryWritesNothingElse :
    (exec .calcr (st (encAccepted 12 0xB38)) = .next (st (encCounted 12 0xB38)) ∧
      (encAccepted 12 0xB38).phase ≠ .invalidInput ∧ (encCounted 12 0xB38).phase = .invalidInput) ∧
    (exec (.encode 0 0 0) (st (inP .idle)) = .next (st (encAccepted 0 0)) ∧ (inP .idle).phase ≠ .invalidInput ∧
      (encAccepted 0 0).phase = .invalidInput) ∧
    (exec (.decode 16 5 1) (st (inP .idle)) = .next (st (decAccepted 16 5 1)) ∧
      (decAccepted 16 5 1).phase = .invalidInput) :=
  ⟨⟨rfl, by decide, rfl⟩, ⟨rfl, by decide, rfl⟩, rfl, rfl⟩

theorem test_witness_InvariantKeptByEveryStep :
    Inv (st (encCounted 7 0x59)) ∧ step (st (encCounted 7 0x59)) = .next (st (encPlaced 7 0x59)) :=
  ⟨⟨by decide, ⟨rfl, rfl, rfl⟩, rfl, rfl, by decide⟩, rfl⟩

theorem test_witness_StepsComputeAtomicAnswer :
    3 ≤ 16 ∧ (encDone 7 0x59 |> acknowledge).phase = .idle ∧ Requests (request 1 11 4 0x55E) ∧
      ∀ b ∈ [request 0 1 0 1], Undisturbing b := by
  unfold Requests Undisturbing; decide

theorem test_witness_AcceptedRequestReachesTerminalPhase :
    isWorking (encAccepted 7 0x59).phase = true ∧ (pins (st (encAccepted 7 0x59))).rst = false ∧
      3 ≤ 16 ∧ (inP .idle).phase = .idle ∧ Requests (request 0 7 0 0x59) ∧ ∀ b ∈ [request 0 1 0 1], Undisturbing b := by
  unfold Requests Undisturbing; decide

theorem test_witness_EarlierCommandsLeaveNoTrace :
    3 ≤ 16 ∧ (acknowledge (encDone 7 0x59)).phase = .idle ∧ (acknowledge (decCorrected 11 4 0x55E)).phase = .idle ∧
      acknowledge (encDone 7 0x59) ≠ acknowledge (decCorrected 11 4 0x55E) ∧ Requests (request 1 3 2 3) ∧
      (∀ b ∈ [request 0 1 0 1], Undisturbing b) ∧ ∀ b ∈ [PortIn.quiet 16], Undisturbing b := by
  unfold Requests Undisturbing; decide

/-- One presented response in each terminal phase. -/
theorem test_witness_ResponseFieldsFollowPhase :
    (Inv (st (encCounted 12 0xB38)) ∧ (encCounted 12 0xB38).phase = .invalidInput) ∧
    (Inv (st (encDone 7 0x59)) ∧ (encDone 7 0x59).phase = .encoded) ∧
    (Inv (st (decLocated 11 4 0x54E)) ∧ (decLocated 11 4 0x54E).phase = .noError) ∧
    (Inv (st (decCorrected 11 4 0x14E)) ∧ (decCorrected 11 4 0x14E).phase = .corrected) ∧
    (Inv (st (decLocated 11 4 0x5C6)) ∧ (decLocated 11 4 0x5C6).phase = .uncorrectableError) :=
  ⟨⟨⟨by decide, by decide, rfl, by decide, by decide⟩, rfl⟩,
    ⟨⟨by decide, rfl, by decide, rfl, by decide, by decide⟩, rfl⟩,
    ⟨⟨by decide, rfl, by decide, rfl, by decide, by decide⟩, rfl⟩,
    ⟨⟨by decide, rfl, by decide, rfl, by decide, by decide⟩, rfl⟩,
    ⟨by decide, rfl, by decide, rfl, by decide, by decide⟩, rfl⟩

/-- Beside the clauses of the accept steps: CAPACITY of the codeword at 12, the last fit at 11; positions 12 and 11. -/
theorem test_witness_FirstFailingCheckDecides :
    parse [] = .error .empty ∧
    rconsistent 11 3 = false ∧ rconsistent 16 5 = false ∧
    (calcR 12 = .ok 5 ∧ 16 < 12 + 5) ∧ (calcR 11 = .ok 4 ∧ 11 + 4 ≤ 16) ∧
    (rconsistent 11 4 = true ∧ (syndrome (ofBus 11 (0x5C6 : BitVec 16)) 4).1 = 12) ∧
    (rconsistent 11 4 = true ∧ (syndrome (ofBus 11 (0x14E : BitVec 16)) 4).1 = 11) := by decide

theorem test_witness_InstancesDoNotInterfere :
    stepInstance 1 [st (inP .idle), st (encCounted 7 0x59)] = .next [st (inP .idle), st (encPlaced 7 0x59)] ∧
      stepInstance 2 [st (inP .idle)] = .next [st (inP .idle)] := ⟨rfl, rfl⟩

theorem test_witness_ParityCountProperties :
    (calcR 1 = .ok 2 ∧ calcR 4 = .ok 3 ∧ calcR 5 = .ok 4) ∧ 4 + 3 + 1 ≤ 2 ^ 3 ∧ (1 ≤ 4 ∧ 4 < 5) ∧
      (3 ≤ 3 ∧ ispow2 3 = false) ∧ (1 + 2 = 3) := by decide

theorem test_witness_ParityCountBounds : calcR 2 = .ok 3 ∧ calcR 3 = .ok 3 := by decide

theorem test_witness_InterleavePlacesDataBits :
    calcR (word 1 1).length = .ok 2 ∧ calcR (word 7 0b1011001).length = .ok 4 ∧
      (ispow2 1 = true ∧ ispow2 11 = false) := by decide

theorem test_witness_InterleaveTextAgrees :
    interleave (word 7 0b1011001) 4 = .ok (word 11 0b10101000100) := by decide

theorem test_witness_CoverageSets :
    (2 ^ 3 ≤ 11) ∧ (2 : Nat) ≠ 3 ∧ bitlength 11 ≤ 4 ∧ (1 ≤ 11 ∧ 11 ≤ 11) := by decide

theorem test_witness_ParityOrderDoesNotMatter :
    List.Perm [3, 2, 1, 0] (List.range 4) ∧ bit (word 11 0b10101000100) (2 ^ 3) = false := by decide

theorem test_witness_CodewordIsTheEvenWord :
    interleave (word 7 0b1011001) 4 = .ok (word 11 0b10101000100) ∧
    (let C := word 11 0b10101001110;
      C.length = 11 ∧ (∀ i, i < 4 → xorAll (observed C i) = false) ∧
        ((List.range 12).all fun p => p == 0 || ispow2 p || bit C p == bit (word 11 0b10101000100) p) = true) := by decide

theorem test_witness_EncoderTraceObservesPlaceholders :
    (encodeAbstract (word 7 0b1011001)).toOption.map (fun e => (e.codeword, e.r, e.trace.length)) =
      some (word 11 0b10101001110, 4, 4) := by decide

theorem test_witness_ErrorPositionIsSyndromeNumber : (0 < 4) ∧ (3 < 4) := by decide

/-- `"10101001110"` is the codeword of `"1011001"` (95_test_vectors.md section 2, S4). -/
theorem test_witness_codeword : IsCodeword (word 11 0b10101001110) 4 := ⟨word 7 0b1011001, _, rfl, by decide, rfl⟩

theorem test_witness_SyndromeIsXorOfFlips :
    IsCodeword (word 11 0b10101001110) 4 ∧ ∀ p ∈ [1, 5, 11], 1 ≤ p ∧ p ≤ (word 11 0b10101001110).length :=
  ⟨test_witness_codeword, by decide⟩

/-- Flips 1, 2 are mis-corrected, 4, 8 uncorrectable; length 3 is perfect. -/
theorem test_witness_TwoFlipsAreNotCorrected :
    IsCodeword (word 11 0b10101001110) 4 ∧ (1 ≤ 1 ∧ 1 ≤ 11 ∧ 1 ≤ 2 ∧ 2 ≤ 11 ∧ 1 ≠ 2 ∧ 1 ^^^ 2 ≤ 11) ∧
      (4 ≠ 8 ∧ 11 < 4 ^^^ 8) ∧ (IsCodeword (word 3 0b111) 2 ∧ (word 3 0b111).length = 2 ^ 2 - 1) :=
  ⟨test_witness_codeword, by decide, by decide, ⟨word 1 1, _, rfl, by decide, rfl⟩, by decide⟩

theorem test_witness_SingleErrorIsCorrected :
    ∃ e, encodeAbstract (word 7 0b1011001) = .ok e ∧ e.codeword.length = 11 := ⟨_, rfl, by decide⟩

theorem test_witness_MismatchedCountIsRejected :
    ∃ e, encodeAbstract (word 7 0b1011001) = .ok e ∧ (word 11 0b10101001110).length = e.codeword.length ∧ 3 ≠ e.r ∧
      5 ≠ e.r := ⟨_, rfl, by decide⟩

theorem test_witness_CorrectedWordHasNoError :
    ∃ t, decodeAbstract (word 11 0b00101001110) 4 = .ok ⟨11, t, some (word 11 0b10101001110)⟩ := ⟨_, rfl⟩

theorem test_witness_CorrectedPresentExactlyInsideWord :
    (∃ d, decodeAbstract (word 11 0b10101001110) 4 = .ok d ∧ d.errorPosition = 0) ∧
    (∃ d, decodeAbstract (word 11 0b00101001110) 4 = .ok d ∧ d.errorPosition = 11) ∧
    (rconsistent (word 11 0b10111000110).length 4 = true ∧ 11 < (syndrome (word 11 0b10111000110) 4).1) :=
  ⟨⟨_, rfl, by decide⟩, ⟨_, rfl, by decide⟩, by decide⟩

theorem test_witness_UncorrectableExactlyBeyondWord :
    rconsistent (word 5 0b10011).length 3 = true ∧ (word 5 0b10011).length < (syndrome (word 5 0b10011) 3).1 := by decide

theorem test_witness_CorrectFlipsExactlyOnePosition :
    (word 3 0b111).length < 4 ∧ (1 ≤ 1 ∧ 1 ≤ (word 3 0b111).length) ∧ (1 ≤ 3 ∧ 3 ≤ (word 3 0b111).length) := by decide

theorem test_witness_CodewordsDifferInThreePositions :
    (word 4 0b1101).length = (word 4 0b1100).length ∧ word 4 0b1101 ≠ word 4 0b1100 ∧
      (∃ e, encodeAbstract (word 4 0b1101) = .ok e) ∧ ∃ e, encodeAbstract (word 4 0b1100) = .ok e :=
  ⟨by decide, by decide, ⟨_, rfl⟩, _, rfl⟩

theorem test_witness_ExtractInvertsEncode : word 1 0 ≠ [] := by decide

theorem test_witness_TextFormRoundTrips :
    word 3 0b110 ≠ [] ∧ parse ['1', '1', '0'] = .ok (word 3 0b110) ∧ 0 < ['1', '1', '0'].length ∧
      2 < ['1', '1', '0'].length := by decide

/-- `"10a1"` and `"1"` (95_test_vectors.md section 3.6), and a word with each outcome of each command. -/
theorem test_witness_TextCommandsAgree :
    (∃ c ∈ ['1', '0', 'a', '1'], c ≠ '0' ∧ c ≠ '1') ∧ (['1'] ≠ [] ∧ ∀ c ∈ ['1'], c = '0' ∨ c = '1') ∧
    (word 7 0b1011001 ≠ [] ∧ (∃ e, encodeAbstract (word 7 0b1011001) = .ok e)) ∧
    (word 11 0b10101011110 ≠ [] ∧ (∃ d, decodeAbstract (word 11 0b10101011110) 4 = .ok d)) ∧
      decodeAbstract (word 11 0b10101011110) 3 = .error (.invalidInput .rMismatch) :=
  ⟨⟨'a', by simp, by simp⟩, by simp, ⟨by decide, _, rfl⟩, ⟨by decide, _, rfl⟩, rfl⟩

theorem test_witness_BusFormRoundTrips :
    (word 16 0xFFFF).length ≤ 16 ∧ (word 11 0x54E).length ≤ 16 ∧ (16 ≤ 16 ∧ ¬ bitAbove 16 (0xFFFF : BitVec 16)) :=
  ⟨by decide, by decide, by decide, fun ⟨_, h1, h2, _⟩ => Nat.lt_irrefl 16 (Nat.lt_of_le_of_lt h1 h2)⟩

end Sys2Proof.Machine.Tests
end

section
/-! What each step keeps of the request latches (spec/10_state.md R15), and why nothing that earlier commands left in the
registers shows in a later command (spec/10_state.md R10): between acceptance and acknowledge, a step reads only
registers that this command has written. -/

namespace Sys2Proof.Machine

/-! ### The registers after a step, phase by phase -/

section
variable {W : Nat} {p : PortIn W} {g : Regs W}

theorem stepRegs_idle_request (hp : g.phase = .idle) (hq : Requests p) :
    stepRegs p g = if p.reqOp = 0#1 then acceptEncode p.reqLen p.reqR p.reqBits g
      else acceptDecode p.reqLen p.reqR p.reqBits g := by
  obtain ⟨hr, hv⟩ := hq
  simp [stepRegs, hr, hp, hv]

theorem stepRegs_idle_wait (hr : p.rst = false) (hp : g.phase = .idle) (hv : p.reqValid = false) :
    stepRegs p g = g := by
  simp [stepRegs, hr, hp, hv]

theorem stepRegs_countParityBits (hr : p.rst = false) (hp : g.phase = .countParityBits) :
    stepRegs p g = countParityBits g := by
  simp [stepRegs, hr, hp]

theorem stepRegs_interleave (hr : p.rst = false) (hp : g.phase = .interleave) : stepRegs p g = interleaveStep g := by
  simp [stepRegs, hr, hp]

theorem stepRegs_computeParity (hr : p.rst = false) (hp : g.phase = .computeParity) : stepRegs p g = parityStep g := by
  simp [stepRegs, hr, hp]

theorem stepRegs_computeSyndrome (hr : p.rst = false) (hp : g.phase = .computeSyndrome) :
    stepRegs p g = syndromeStep g := by
  simp [stepRegs, hr, hp]

theorem stepRegs_singleBitError (hr : p.rst = false) (hp : g.phase = .singleBitError) :
    stepRegs p g = correctStep g := by
  simp [stepRegs, hr, hp]

theorem stepRegs_terminal (hr : p.rst = false) (hp : isTerminal g.phase = true) :
    stepRegs p g = handshake p.rspAck g := by
  cases h : g.phase with
  | encoded | noError | corrected | uncorrectableError | invalidInput => simp [stepRegs, hr, h]
  | _ => rw [h] at hp; cases hp

/-- Without reset and acknowledge a terminal phase is held (45_sequencer.md R141). -/
theorem stepRegs_terminal_held (hu : Undisturbing p) (hp : isTerminal g.phase = true) : stepRegs p g = g := by
  obtain ⟨hr, hack⟩ := hu
  simp [stepRegs_terminal hr hp, hack, handshake]

end

/-! ### The request latches -/

/-- The request latches of `g` and `h` hold the same (10_state.md R15). -/
def SameRequest {W : Nat} (g h : Regs W) : Prop :=
  g.qOp = h.qOp ∧ g.qLen = h.qLen ∧ g.qR = h.qR ∧ g.qBits = h.qBits

section
variable {W : Nat} (g : Regs W)

theorem SameRequest.refl : SameRequest g g := ⟨rfl, rfl, rfl, rfl⟩

theorem countParityBits_keeps_request : SameRequest (countParityBits g) g := by
  rcases countParityBits_cases g with ⟨c, -, e⟩ | ⟨n, -, -, e⟩ | ⟨n, -, -, e⟩ <;> simp [e, SameRequest]

theorem interleaveStep_keeps_request : SameRequest (interleaveStep g) g := by
  rcases interleaveStep_cases g with ⟨c, -, e⟩ | ⟨S, -, e⟩ <;> simp [e, SameRequest]

theorem parityStep_keeps_request : SameRequest (parityStep g) g := ⟨rfl, rfl, rfl, rfl⟩

theorem withSyndrome_keeps_request : SameRequest (withSyndrome g) g := ⟨rfl, rfl, rfl, rfl⟩

theorem syndromeStep_keeps_request : SameRequest (syndromeStep g) g := by
  rcases syndromeStep_cases g _ rfl with ⟨-, e⟩ | ⟨-, -, e⟩ | ⟨-, e⟩ <;> rw [e] <;>
    exact withSyndrome_keeps_request g

theorem correctStep_keeps_request : SameRequest (correctStep g) g := by
  rcases correctStep_cases g with ⟨-, e⟩ | ⟨-, -, e⟩ <;> simp [e, SameRequest]

theorem handshake_keeps_request (ack : Bool) : SameRequest (handshake ack g) g := by
  rcases handshake_cases g ack with ⟨-, -, e⟩ | ⟨-, e⟩ <;> simp [e, SameRequest]

theorem acceptEncode_latches (len r : BitVec (LW W)) (bits : BitVec W) :
    SameRequest (acceptEncode len r bits g) (latch 0#1 len r bits g) := by
  rcases acceptEncode_cases len r bits g with ⟨c, -, e⟩ | ⟨-, e⟩ <;> simp [e, SameRequest]

theorem acceptDecode_latches (len r : BitVec (LW W)) (bits : BitVec W) :
    SameRequest (acceptDecode len r bits g) (latch 1#1 len r bits g) := by
  rcases acceptDecode_cases len r bits g with ⟨c, -, e⟩ | ⟨-, e⟩ <;> simp [e, SameRequest]

variable {g} {p : PortIn W}

/-- The accepting step leaves the request's own fields in the latches. -/
theorem stepRegs_latches_request (hp : g.phase = .idle) (hq : Requests p) :
    SameRequest (stepRegs p g) (latch p.reqOp p.reqLen p.reqR p.reqBits g) := by
  rcases stepRegs_accept p g hp hq.1 hq.2 with ⟨hop, e⟩ | ⟨hop, e⟩ <;> rw [e, hop]
  · exact acceptEncode_latches g _ _ _
  · exact acceptDecode_latches g _ _ _

/-- A step without reset that accepts no request keeps the latches. -/
theorem stepRegs_keeps_request (hr : p.rst = false) (hn : ¬ (g.phase = .idle ∧ Requests p)) :
    SameRequest (stepRegs p g) g := by
  cases hp : g.phase with
  | idle =>
    have hv : p.reqValid = false := by simpa [hp, Requests, hr] using hn
    rw [stepRegs_idle_wait hr hp hv]
    exact SameRequest.refl g
  | countParityBits => rw [stepRegs_countParityBits hr hp]; exact countParityBits_keeps_request g
  | interleave => rw [stepRegs_interleave hr hp]; exact interleaveStep_keeps_request g
  | computeParity => rw [stepRegs_computeParity hr hp]; exact parityStep_keeps_request g
  | computeSyndrome => rw [stepRegs_computeSyndrome hr hp]; exact syndromeStep_keeps_request g
  | singleBitError => rw [stepRegs_singleBitError hr hp]; exact correctStep_keeps_request g
  | encoded | noError | corrected | uncorrectableError | invalidInput =>
    rw [stepRegs_terminal hr (by rw [hp]; rfl)]
    exact handshake_keeps_request g p.rspAck

end

/-- Settles O12, by the step that each phase takes. -/
theorem latchesKeepAcceptedRequest : Obligations.LatchesKeepAcceptedRequest := by
  intro W p ins g g' hstep
  obtain rfl : stepRegs p g = g' := by simpa [step_cons] using hstep
  exact ⟨fun ⟨hp, hq⟩ => stepRegs_latches_request hp hq, stepRegs_keeps_request⟩

/-! ### Registers that agree on what the running command still reads -/

section
variable {W : Nat}

/-- The registers that the response shows beside the result fields hold the same (30_encoding.md R56). -/
def SameShown (g h : Regs W) : Prop :=
  g.wN = h.wN ∧ g.wR = h.wR ∧ rspBits g = rspBits h ∧ rspErrpos g = rspErrpos h ∧
    g.tCov = h.tCov ∧ g.tObs = h.tObs ∧ g.tVal = h.tVal

/-- `g` and `h` are at the same point of the same accepted command: in one phase, and with the same in every register
that this command still reads. All other registers, leftovers of earlier commands, may differ. Idle is left out: there
no command runs. -/
inductive Alike (g h : Regs W) : Prop
  | counting (hg : g.phase = .countParityBits) (hh : h.phase = .countParityBits) (req : SameRequest g h)
      (op : g.qOp = 0#1) (wM : g.wM = h.wM)
  | counted (hg : g.phase = .interleave) (hh : h.phase = .interleave) (req : SameRequest g h)
      (op : g.qOp = 0#1) (wR : g.wR = h.wR) (wN : g.wN = h.wN)
  | placed (hg : g.phase = .computeParity) (hh : h.phase = .computeParity) (req : SameRequest g h)
      (op : g.qOp = 0#1) (wR : g.wR = h.wR) (wN : g.wN = h.wN) (wSeq : g.wSeq = h.wSeq)
  | received (hg : g.phase = .computeSyndrome) (hh : h.phase = .computeSyndrome) (req : SameRequest g h)
      (op : g.qOp = 1#1) (wR : g.wR = h.wR) (wN : g.wN = h.wN)
  | located (hg : g.phase = .singleBitError) (hh : h.phase = .singleBitError) (req : SameRequest g h)
      (op : g.qOp = 1#1) (wPos : g.wPos = h.wPos) (shown : SameShown g h)
  | responding (terminal : isTerminal g.phase = true) (phase : g.phase = h.phase) (rsp : response g = response h)

variable {g h : Regs W}

theorem Alike.phase_eq (a : Alike g h) : g.phase = h.phase := by
  cases a with
  | counting hg hh | counted hg hh | placed hg hh | received hg hh | located hg hh => rw [hg, hh]
  | responding _ phase _ => exact phase

theorem response_none (hp : isTerminal g.phase = false) : response g = none := by
  simp [response, rspValid, hp]

theorem Alike.response_eq (a : Alike g h) : response g = response h := by
  cases a with
  | counting hg hh | counted hg hh | placed hg hh | received hg hh | located hg hh =>
    rw [response_none (by rw [hg]; rfl), response_none (by rw [hh]; rfl)]
  | responding _ _ rsp => exact rsp

theorem response_congr (phase : g.phase = h.phase) (status : g.stStatus = h.stStatus) (cause : g.stCause = h.stCause)
    (corr : g.stCorr = h.stCorr) (shown : SameShown g h) : response g = response h := by
  obtain ⟨wN, wR, bits, errpos, tCov, tObs, tVal⟩ := shown
  unfold response rspValid
  rw [phase, status, cause, corr, wN, wR, bits, errpos, tCov, tObs, tVal]

/-! The three entries into a terminal phase. -/

theorem fail_alike (c : Cause) (g h : Regs W) : Alike (fail c g) (fail c h) := .responding rfl rfl rfl

theorem finish_alike {p : Phase} (terminal : isTerminal p = true) (corr : Bool) (shown : SameShown g h) :
    Alike (finish p corr g) (finish p corr h) :=
  .responding terminal rfl (response_congr rfl rfl rfl rfl shown)

theorem failUncorrectable_alike (shown : SameShown g h) : Alike (failUncorrectable g) (failUncorrectable h) :=
  .responding rfl rfl (response_congr rfl rfl rfl rfl shown)

/-! Acceptance makes any two register states alike, and every step keeps them alike. -/

theorem acceptEncode_alike (len r : BitVec (LW W)) (bits : BitVec W) (g h : Regs W) :
    Alike (acceptEncode len r bits g) (acceptEncode len r bits h) := by
  unfold acceptEncode
  cases operandFailure len bits with
  | some c => exact fail_alike c _ _
  | none => exact .counting rfl rfl ⟨rfl, rfl, rfl, rfl⟩ rfl rfl

theorem acceptDecode_alike (len r : BitVec (LW W)) (bits : BitVec W) (g h : Regs W) :
    Alike (acceptDecode len r bits g) (acceptDecode len r bits h) := by
  unfold acceptDecode
  cases decodeFailure len r bits with
  | some c => exact fail_alike c _ _
  | none => exact .received rfl rfl ⟨rfl, rfl, rfl, rfl⟩ rfl rfl rfl

theorem countParityBits_alike (req : SameRequest g h) (op : g.qOp = 0#1) (wM : g.wM = h.wM) :
    Alike (countParityBits g) (countParityBits h) := by
  unfold countParityBits
  rw [← wM]
  cases calcR g.wM.toNat with
  | error c => exact fail_alike c g h
  | ok r =>
    by_cases hW : W < g.wM.toNat + r
    · simp only [if_pos hW]
      exact fail_alike .capacity g h
    · simp only [if_neg hW]
      exact .counted rfl rfl req op rfl rfl

theorem interleaveStep_alike (req : SameRequest g h) (op : g.qOp = 0#1) (wR : g.wR = h.wR) (wN : g.wN = h.wN) :
    Alike (interleaveStep g) (interleaveStep h) := by
  have operands : interleave (ofBus h.qLen.toNat h.qBits) h.wR.toNat =
      interleave (ofBus g.qLen.toNat g.qBits) g.wR.toNat := by
    obtain ⟨-, qLen, -, qBits⟩ := req
    rw [qLen, qBits, wR]
  unfold interleaveStep
  rw [operands]
  cases interleave (ofBus g.qLen.toNat g.qBits) g.wR.toNat with
  | error c => exact fail_alike c g h
  | ok S => exact .placed rfl rfl req op wR wN rfl

theorem parityStep_alike (req : SameRequest g h) (op : g.qOp = 0#1) (wR : g.wR = h.wR) (wN : g.wN = h.wN)
    (wSeq : g.wSeq = h.wSeq) : Alike (parityStep g) (parityStep h) := by
  have op' : h.qOp = 0#1 := req.1 ▸ op
  refine finish_alike rfl false ?_
  simp [SameShown, rspBits, rspErrpos, op, op', wR, wN, wSeq]

theorem withSyndrome_sameShown (req : SameRequest g h) (op : g.qOp = 1#1) (wR : g.wR = h.wR) (wN : g.wN = h.wN) :
    SameShown (withSyndrome g) (withSyndrome h) := by
  obtain ⟨qOp, qLen, -, qBits⟩ := req
  simp [SameShown, withSyndrome, rspBits, rspErrpos, op, ← qOp, qLen, qBits, wR, wN]

theorem syndromeStep_alike (req : SameRequest g h) (op : g.qOp = 1#1) (wR : g.wR = h.wR) (wN : g.wN = h.wN) :
    Alike (syndromeStep g) (syndromeStep h) := by
  have shown := withSyndrome_sameShown req op wR wN
  have operands : syndrome (ofBus h.qLen.toNat h.qBits) h.wR.toNat =
      syndrome (ofBus g.qLen.toNat g.qBits) g.wR.toNat := by
    obtain ⟨-, qLen, -, qBits⟩ := req
    rw [qLen, qBits, wR]
  have wPos : (withSyndrome g).wPos = (withSyndrome h).wPos := by simp [withSyndrome, operands]
  have exits : classify h.wN.toNat (syndrome (ofBus h.qLen.toNat h.qBits) h.wR.toNat).1 =
      classify g.wN.toNat (syndrome (ofBus g.qLen.toNat g.qBits) g.wR.toNat).1 := by rw [operands, wN]
  unfold syndromeStep
  simp only [exits]
  cases classify g.wN.toNat (syndrome (ofBus g.qLen.toNat g.qBits) g.wR.toNat).1 with
  | noError => exact finish_alike rfl false shown
  | singleBitError pos => exact .located rfl rfl req op wPos shown
  | uncorrectableError => exact failUncorrectable_alike shown

/-- A DECODE shows the same again when the same word is written to the output register. -/
theorem SameShown.write_wOut (shown : SameShown g h) (op : g.qOp = 1#1) (op' : h.qOp = 1#1) (out : BitVec W) :
    SameShown { g with wOut := out } { h with wOut := out } := by
  obtain ⟨wN, wR, -, errpos, traces⟩ := shown
  exact ⟨wN, wR, by simp [rspBits, op, op'], errpos, traces⟩

theorem correctStep_alike (req : SameRequest g h) (op : g.qOp = 1#1) (wPos : g.wPos = h.wPos)
    (shown : SameShown g h) : Alike (correctStep g) (correctStep h) := by
  have operands : correct (ofBus h.qLen.toNat h.qBits) h.wPos.toNat =
      correct (ofBus g.qLen.toNat g.qBits) g.wPos.toNat := by
    obtain ⟨-, qLen, -, qBits⟩ := req
    rw [qLen, qBits, wPos]
  unfold correctStep
  rw [operands]
  cases correct (ofBus g.qLen.toNat g.qBits) g.wPos.toNat with
  | error c => exact fail_alike c g h
  | ok C => exact finish_alike rfl true (shown.write_wOut op (req.1 ▸ op) (toBus W C))

variable {p p' : PortIn W}

/-- Two register states in Idle are alike once the same request has been accepted. -/
theorem stepRegs_request_alike (hg : g.phase = .idle) (hh : h.phase = .idle) (hq : Requests p) :
    Alike (stepRegs p g) (stepRegs p h) := by
  rw [stepRegs_idle_request hg hq, stepRegs_idle_request hh hq]
  split
  · exact acceptEncode_alike _ _ _ g h
  · exact acceptDecode_alike _ _ _ g h

/-- Alike register states stay alike, whatever request the pins present (45_sequencer.md R142). -/
theorem stepRegs_alike (hp : Undisturbing p) (hp' : Undisturbing p') (a : Alike g h) :
    Alike (stepRegs p g) (stepRegs p' h) := by
  have hr := hp.1
  have hr' := hp'.1
  cases a with
  | counting hg hh req op wM =>
    rw [stepRegs_countParityBits hr hg, stepRegs_countParityBits hr' hh]
    exact countParityBits_alike req op wM
  | counted hg hh req op wR wN =>
    rw [stepRegs_interleave hr hg, stepRegs_interleave hr' hh]
    exact interleaveStep_alike req op wR wN
  | placed hg hh req op wR wN wSeq =>
    rw [stepRegs_computeParity hr hg, stepRegs_computeParity hr' hh]
    exact parityStep_alike req op wR wN wSeq
  | received hg hh req op wR wN =>
    rw [stepRegs_computeSyndrome hr hg, stepRegs_computeSyndrome hr' hh]
    exact syndromeStep_alike req op wR wN
  | located hg hh req op wPos shown =>
    rw [stepRegs_singleBitError hr hg, stepRegs_singleBitError hr' hh]
    exact correctStep_alike req op wPos shown
  | responding terminal phase rsp =>
    rw [stepRegs_terminal_held hp terminal, stepRegs_terminal_held hp' (phase ▸ terminal)]
    exact .responding terminal phase rsp

/-! ### Runs -/

/-- The first of several steps of the block. -/
theorem core_run_succ (k : Nat) (ins : List (PortIn W)) (g : Regs W) :
    Host.Core.run core (k + 1) (⟨W, ins, g⟩ : State) =
      Host.Core.run core k (⟨W, ins.tail, stepRegs (pins ⟨W, ins, g⟩) g⟩ : State) :=
  run_succ step State.reset k _ _ (step_eq _)

/-- The pins of a step are undisturbing when all samples to come are, run out or not. -/
theorem pins_undisturbing {ins : List (PortIn W)} (hu : ∀ b ∈ ins, Undisturbing b) (g : Regs W) :
    Undisturbing (pins ⟨W, ins, g⟩) := by
  cases ins with
  | nil => exact ⟨rfl, rfl⟩
  | cons p ins => exact hu p List.mem_cons_self

/-- Runs from alike register states end in alike ones. -/
theorem core_run_alike (k : Nat) : ∀ {ins ins' : List (PortIn W)} {g h : Regs W}, Alike g h →
    (∀ b ∈ ins, Undisturbing b) → (∀ b ∈ ins', Undisturbing b) →
    ∃ (t t' : List (PortIn W)) (g' h' : Regs W),
      Host.Core.run core k ⟨W, ins, g⟩ = .next (⟨W, t, g'⟩ : State) ∧
      Host.Core.run core k ⟨W, ins', h⟩ = .next (⟨W, t', h'⟩ : State) ∧ Alike g' h' := by
  induction k with
  | zero => exact fun a _ _ => ⟨_, _, _, _, rfl, rfl, a⟩
  | succ k ih =>
    intro ins ins' g h a hu hu'
    rw [core_run_succ, core_run_succ]
    exact ih (stepRegs_alike (pins_undisturbing hu g) (pins_undisturbing hu' h) a)
      (fun b hb => hu b (List.mem_of_mem_tail hb)) (fun b hb => hu' b (List.mem_of_mem_tail hb))

end

/-- Settles O27: acceptance makes the two register states alike, and every later step keeps them alike. -/
theorem earlierCommandsLeaveNoTrace : Obligations.EarlierCommandsLeaveNoTrace := by
  intro W k p busy busy' g h _ hg hh hq hu hu'
  cases k with
  | zero =>
    have hn : response g = response h := by
      rw [response_none (by rw [hg]; rfl), response_none (by rw [hh]; rfl)]
    exact ⟨_, _, g, h, rfl, rfl, hg.trans hh.symm, hn⟩
  | succ k =>
    obtain ⟨ins, ins', g', h', run, run', a⟩ := core_run_alike k (stepRegs_request_alike hg hh hq) hu hu'
    refine ⟨ins, ins', g', h', ?_, ?_, a.phase_eq, a.response_eq⟩
    · rw [core_run_succ]; exact run
    · rw [core_run_succ]; exact run'

end Sys2Proof.Machine
end

section
/-! The selection of an operation and the text form (spec/30_encoding.md R51, R55): which operations a request word can
select, and what `parse` answers for which texts. -/

namespace Sys2Proof.Machine

/-! ### What selects an operation -/

/-- A request word selects a command, never a component operation (30_encoding.md R55). -/
theorem decodeReq_isCommand {W : Nat} (w : BitVec (reqWidth W)) :
    Laws.Format.isCommand (decodeReq w) = true := by
  unfold decodeReq
  split
  · rfl
  · rfl

/-- Settles O3: the fields of a packed word are read back, and a command is none of the component operations. -/
theorem requestSelectsCommand : Obligations.RequestSelectsCommand := by
  intro W op len r bits
  refine ⟨congrArg _ (decodeReq_packReq op len r bits), ?_, rfl, rfl, rfl, rfl, rfl⟩
  rintro i ⟨w, hw⟩
  obtain rfl : decodeReq w = i := Except.ok.inj hw
  have not_component : ∀ j, Laws.Format.isCommand j = false → decodeReq w ≠ j := by
    rintro j component rfl
    rw [decodeReq_isCommand] at component
    cases component
  exact ⟨not_component _ rfl, not_component _ rfl, not_component _ rfl, not_component _ rfl, not_component _ rfl⟩

/-! ### The characters of a bit string -/

theorem isBinary_iff (c : Char) : isBinary c = true ↔ c = '0' ∨ c = '1' := by
  simp [isBinary]

@[simp] theorem isBinary_bitChar (b : Bool) : isBinary (bitChar b) = true := by
  cases b <;> rfl

@[simp] theorem bitChar_beq_one (b : Bool) : (bitChar b == '1') = b := by
  cases b <;> rfl

/-- A binary character is the one of the bit it is read as. -/
theorem bitChar_of_isBinary {c : Char} (h : isBinary c = true) : bitChar (c == '1') = c := by
  obtain rfl | rfl := (isBinary_iff c).mp h
  · rfl
  · rfl

@[simp] theorem text_length (S : BitString) : (text S).length = S.length := by
  simp [text]

@[simp] theorem text_eq_nil_iff (S : BitString) : text S = [] ↔ S = [] := by
  simp [text]

theorem text_all_isBinary (S : BitString) : (text S).all isBinary = true := by
  simp [text]

/-- The character at index `k` from the left is the bit at position `n - k` (20_memory.md R32). -/
theorem text_getElem? (S : BitString) (k : Nat) (hk : k < S.length) :
    (text S)[k]? = some (bitChar (bit S (S.length - k))) := by
  have pos : S.length - k = S.length - 1 - k + 1 := by omega
  have inside : S.length - 1 - k < S.length := by omega
  rw [pos, bit_succ, List.getD_eq_getElem _ _ inside, text, List.getElem?_map, List.getElem?_reverse hk,
    List.getElem?_eq_getElem inside, Option.map_some]

/-! ### What `parse` answers -/

/-- The bit string that a text is read as (30_encoding.md R51). -/
def readBits (T : Text) : BitString := T.reverse.map (· == '1')

theorem readBits_text (S : BitString) : readBits (text S) = S := by
  simp [readBits, text, Function.comp_def]

theorem text_readBits {T : Text} (h : T.all isBinary = true) : text (readBits T) = T := by
  have back : ∀ c ∈ T, bitChar (c == '1') = c := fun c hc => bitChar_of_isBinary (List.all_eq_true.mp h c hc)
  simpa [text, readBits, Function.comp_def] using List.map_congr_left back

/-- The three answers of `parse`, which exclude each other (30_encoding.md R51). -/
theorem parse_cases (T : Text) :
    (T = [] ∧ parse T = .error .empty) ∨
    (T ≠ [] ∧ T.all isBinary = true ∧ parse T = .ok (readBits T)) ∨
    (T.all isBinary = false ∧ parse T = .error .malformed) := by
  unfold parse
  cases T with
  | nil => exact .inl ⟨rfl, rfl⟩
  | cons c T =>
    cases h : (c :: T).all isBinary with
    | true => exact .inr (.inl ⟨List.cons_ne_nil c T, rfl, rfl⟩)
    | false => exact .inr (.inr ⟨rfl, rfl⟩)

theorem parse_eq_empty_iff (T : Text) : parse T = .error .empty ↔ T = [] := by
  rcases parse_cases T with ⟨nil, e⟩ | ⟨nonempty, -, e⟩ | ⟨other, e⟩
  · exact iff_of_true e nil
  · simp [e, nonempty]
  · have nonempty : T ≠ [] := by rintro rfl; cases other
    simp [e, nonempty]

theorem parse_eq_malformed_iff (T : Text) : parse T = .error .malformed ↔ T.all isBinary = false := by
  rcases parse_cases T with ⟨rfl, e⟩ | ⟨-, binary, e⟩ | ⟨other, e⟩
  · simp [e]
  · simp [e, binary]
  · simp [e, other]

/-- `parse` succeeds on the texts of nonempty bit strings and nowhere else, with the string of the text. -/
theorem parse_eq_ok_iff (T : Text) (S : BitString) : parse T = .ok S ↔ S ≠ [] ∧ text S = T := by
  rcases parse_cases T with ⟨rfl, e⟩ | ⟨nonempty, binary, e⟩ | ⟨other, e⟩
  · simp [e]
  · constructor
    · intro h
      obtain rfl : readBits T = S := Except.ok.inj (e.symm.trans h)
      have back := text_readBits binary
      exact ⟨by rwa [ne_eq, ← text_eq_nil_iff, back], back⟩
    · rintro ⟨-, rfl⟩
      rw [e, readBits_text]
  · have not_text : text S ≠ T := by
      rintro rfl
      rw [text_all_isBinary] at other
      cases other
    simp [e, not_text]

/-- Settles O53: `parse` succeeds exactly on the texts of nonempty bit strings, and fails by its two checks. -/
theorem textFormRoundTrips : Obligations.TextFormRoundTrips := by
  refine ⟨fun S hS => (parse_eq_ok_iff _ S).mpr ⟨hS, rfl⟩, fun T S h => ((parse_eq_ok_iff T S).mp h).2,
    fun T => ⟨parse_eq_empty_iff T, ?_⟩, ?_⟩
  · simp [parse_eq_malformed_iff, isBinary]
  · intro T S h k hk
    obtain ⟨-, rfl⟩ := (parse_eq_ok_iff T S).mp h
    rw [text_length] at hk ⊢
    simp [text_getElem? S k hk]

end Sys2Proof.Machine
end

section
/-! The redundant-bit counter (spec/40_redundant_bit_counter.md): CALCR's answer is the one count whose powers of two
enclose the codeword length, and the properties of R83 and R84 are read off from that bracket. -/

namespace Sys2Proof.Machine

/-- Settles O31: the scan stops at the first count that satisfies the inequality. -/
theorem calcrReturnsLeastCount : Obligations.CalcrReturnsLeastCount := by
  refine ⟨calcR_zero, fun m hm => ?_⟩
  obtain ⟨r, ok, fits, -, least⟩ := calcR_pos m (by omega)
  exact ⟨r, ok, fits, least⟩

/-! ### Powers of two around a word -/

/-- Strictly between two consecutive powers of two there is none. -/
theorem ispow2_eq_false_of_between {n r : Nat} (lo : 2 ^ (r - 1) < n) (hi : n < 2 ^ r) : ispow2 n = false := by
  rw [Bool.eq_false_iff, ne_eq, ispow2_iff]
  rintro ⟨i, rfl⟩
  have above := (Nat.pow_lt_pow_iff_right Nat.one_lt_two).mp lo
  have below := (Nat.pow_lt_pow_iff_right Nat.one_lt_two).mp hi
  omega

/-- The powers of two below `2 ^ r` are the `r` parity positions. -/
theorem ispow2_iff_of_lt {p r : Nat} (hp : p < 2 ^ r) : ispow2 p = true ↔ ∃ i, i < r ∧ p = 2 ^ i := by
  rw [ispow2_iff]
  constructor
  · rintro ⟨i, rfl⟩
    exact ⟨i, (Nat.pow_lt_pow_iff_right Nat.one_lt_two).mp hp, rfl⟩
  · rintro ⟨i, -, hi⟩
    exact ⟨i, hi⟩

/-! ### The bracket of a count (40_redundant_bit_counter.md R84, items 2 and 4) -/

/-- The converse of `calcR_brackets`: these bounds leave no other count. -/
theorem calcR_eq_ok_iff_brackets (m r : Nat) :
    calcR m = .ok r ↔ 1 ≤ m ∧ 2 ≤ r ∧ 2 ^ (r - 1) < m + r ∧ m + r < 2 ^ r := by
  refine ⟨calcR_brackets m r, fun ⟨hm, hr, lo, hi⟩ => (calcR_eq_ok_iff m r).mpr ⟨by omega, hi, fun t ht => ?_⟩⟩
  by_contra fits
  have := inequality_stays m t (r - 1) (by omega) (show t ≤ r - 1 by omega)
  omega

/-- The bracket on `m` itself; the differences do not truncate, since `r + 1 <= 2 ^ r`. -/
theorem calcR_eq_ok_iff_mem_bracket {m r : Nat} (hm : 1 ≤ m) (hr : 1 ≤ r) :
    calcR m = .ok r ↔ 2 ^ (r - 1) - (r - 1) - 1 < m ∧ m ≤ 2 ^ r - r - 1 := by
  rw [calcR_eq_ok_iff_brackets]
  have lower := Nat.lt_two_pow_self (n := r - 1)
  constructor
  · rintro ⟨-, -, lo, hi⟩
    omega
  · rintro ⟨lo, hi⟩
    have two_le : 2 ≤ r := by
      by_contra small
      obtain rfl : r = 1 := by omega
      omega
    omega

/-! ### The inequality and the count grow (R84, items 3 and 5) -/

/-- The greatest message length that `r` parity bits serve does not decrease in `r`. -/
theorem two_pow_sub_sub_mono {r r' : Nat} (h : r ≤ r') : 2 ^ r - r - 1 ≤ 2 ^ r' - r' - 1 := by
  have exact_fit : 2 ^ r - r - 1 + r + 1 ≤ 2 ^ r := by
    have := Nat.lt_two_pow_self (n := r)
    omega
  have := inequality_stays _ r r' exact_fit h
  omega

/-- A count that serves the longer message serves the shorter one, so the least count is no greater. -/
theorem calcR_mono {m r m' r' : Nat} (h : calcR m = .ok r) (h' : calcR m' = .ok r') (hm : m ≤ m') : r ≤ r' := by
  obtain ⟨-, -, least⟩ := (calcR_eq_ok_iff m r).mp h
  obtain ⟨-, fits, -⟩ := (calcR_eq_ok_iff m' r').mp h'
  by_contra greater
  have := least r' (by omega)
  omega

/-! ### The codeword lengths (R84, item 5) -/

/-- `r` is the count of a message whose codeword has `n` bits exactly when `n >= 3` is no power of two and `r` is its
bitlength. -/
theorem exists_calcR_length_iff (n r : Nat) :
    (∃ m, calcR m = .ok r ∧ n = m + r) ↔ 3 ≤ n ∧ ispow2 n = false ∧ r = bitlength n := by
  constructor
  · rintro ⟨m, ok, rfl⟩
    obtain ⟨hm, hr, lo, hi⟩ := calcR_brackets m r ok
    exact ⟨by omega, ispow2_eq_false_of_between lo hi, calcR_eq_bitlength m r ok⟩
  · rintro ⟨hn, not_pow, rfl⟩
    have two_le : 2 ≤ bitlength n := bitlength_mono hn
    have lo : 2 ^ (bitlength n - 1) < n := by
      have le := two_pow_le_of_bitlength n (by omega)
      have ne : 2 ^ (bitlength n - 1) ≠ n := fun e => by
        rw [(ispow2_iff n).mpr ⟨_, e.symm⟩] at not_pow
        cases not_pow
      omega
    have count_lt : bitlength n < n := by
      have := Nat.lt_two_pow_self (n := bitlength n - 1)
      omega
    have sum : n - bitlength n + bitlength n = n := Nat.sub_add_cancel count_lt.le
    refine ⟨n - bitlength n, (calcR_eq_ok_iff_brackets _ _).mpr ⟨by omega, two_le, ?_, ?_⟩, sum.symm⟩
    · rwa [sum]
    · rw [sum]
      exact lt_two_pow_bitlength n

/-- The positions of the codeword of a message: the parity positions are the powers of two inside it, and the last
position is none (R84, item 2). -/
theorem calcR_positions {m r : Nat} (h : calcR m = .ok r) :
    (∀ p, 1 ≤ p → p ≤ m + r → (ispow2 p = true ↔ ∃ i, i < r ∧ p = 2 ^ i)) ∧ ispow2 (m + r) = false ∧
      ∀ i, i < r → 2 ^ i ≤ m + r := by
  obtain ⟨-, -, lo, hi⟩ := calcR_brackets m r h
  refine ⟨fun p _ hp => ispow2_iff_of_lt (by omega), ispow2_eq_false_of_between lo hi, fun i hlt => ?_⟩
  have : 2 ^ i ≤ 2 ^ (r - 1) := Nat.pow_le_pow_right Nat.two_pos (by omega)
  omega

/-- Settles O32: each item of R84 follows from the bracket of the count. -/
theorem parityCountProperties : Obligations.ParityCountProperties := by
  refine ⟨fun m r ok => ?_, fun m r r' fits le => ⟨two_pow_sub_sub_mono le, inequality_stays m r r' fits le⟩,
    fun m r m' r' ok ok' le => ?_, fun m r hm hr => calcR_eq_ok_iff_mem_bracket hm hr, fun n => ?_⟩
  · obtain ⟨-, hr, lo, hi⟩ := calcR_brackets m r ok
    exact ⟨hr, lo, hi, calcR_eq_bitlength m r ok, calcR_positions ok⟩
  · have count_le := calcR_mono ok ok' le
    exact ⟨count_le, fun lt => by omega⟩
  · rw [exists_comm]
    simp [exists_calcR_length_iff]

/-! ### The bounds on a count (R83) -/

/-- From length 3 on, the length itself satisfies the inequality. -/
theorem self_satisfies_inequality {m : Nat} (h : 3 ≤ m) : m + m + 1 ≤ 2 ^ m := by
  induction m, h using Nat.le_induction with
  | base => decide
  | succ m _ ih => rw [Nat.pow_succ]; omega

theorem calcR_le_bitlength_succ {m r : Nat} (h : calcR m = .ok r) : r ≤ bitlength m + 1 := by
  obtain ⟨hm, -⟩ := (calcR_eq_ok_iff m r).mp h
  obtain ⟨t, ok, -, bound, -⟩ := calcR_pos m hm
  obtain rfl : r = t := Except.ok.inj (h.symm.trans ok)
  exact bound

/-- A count is at most the length exactly from length 3 on: at lengths 1 and 2 the counts are 2 and 3. -/
theorem calcR_le_self_iff {m r : Nat} (h : calcR m = .ok r) : r ≤ m ↔ 3 ≤ m := by
  obtain ⟨-, fits, least⟩ := (calcR_eq_ok_iff m r).mp h
  obtain ⟨-, two_le, -, -⟩ := calcR_brackets m r h
  constructor
  · intro le
    by_contra short
    obtain ⟨rfl, rfl⟩ : m = 2 ∧ r = 2 := by omega
    omega
  · intro hm
    by_contra greater
    have := least m (by omega)
    have := self_satisfies_inequality hm
    omega

/-- Settles O33: the scan ends by `bitlength(m) + 1`, and by `m` itself as soon as `m` satisfies the inequality. -/
theorem parityCountBounds : Obligations.ParityCountBounds :=
  fun _ _ ok => ⟨calcR_le_bitlength_succ ok, calcR_le_self_iff ok⟩

end Sys2Proof.Machine
end

section
/-! The placeholder interleaver (spec/41_interleaver.md): the data positions of a word are numbered `1, 2, …` by
`p - bitlength(p)`, and the text formulation runs the loop of INTERLEAVE on the characters of the bits. -/

namespace Sys2Proof.Machine

/-! ### The numbering of the data positions (20_memory.md R35) -/

theorem mem_dataPositions (n p : Nat) : p ∈ dataPositions n ↔ (1 ≤ p ∧ p ≤ n) ∧ ispow2 p = false := by
  simp [dataPositions, List.mem_range'_1, Nat.add_comm 1 n]

/-- The next position is appended to the data positions unless it is a power of two. -/
theorem dataPositions_succ (n : Nat) :
    dataPositions (n + 1) = dataPositions n ++ if ispow2 (n + 1) then [] else [n + 1] := by
  rw [dataPositions, List.range'_1_concat, List.filter_append, Nat.add_comm 1 n]
  cases h : ispow2 (n + 1) <;> simp [dataPositions, h]

/-- In increasing order, the data positions carry the numbers `1, 2, …` up to the count of positions that are no power
of two. -/
theorem dataPositions_map_index (n : Nat) :
    (dataPositions n).map (fun p => p - bitlength p) = List.range' 1 (n - bitlength n) := by
  induction n with
  | zero => rfl
  | succ n ih =>
    have le := bitlength_le_self n
    have next := bitlength_succ n
    rw [dataPositions_succ, List.map_append, ih]
    cases h : ispow2 (n + 1) with
    | true =>
      rw [h, if_pos rfl] at next
      rw [next, Nat.add_sub_add_right]
      exact List.append_nil _
    | false =>
      rw [h, if_neg Bool.false_ne_true] at next
      have number : n + 1 - bitlength n = n - bitlength n + 1 := by omega
      rw [next, number, List.range'_1_concat]
      simp [next, number, Nat.add_comm]

/-- The data positions of the codeword of an `m`-bit message carry the numbers `1..m`. -/
theorem calcR_dataPositions_map_index {m r : Nat} (h : calcR m = .ok r) :
    (dataPositions (m + r)).map (fun p => p - bitlength p) = List.range' 1 m := by
  rw [dataPositions_map_index, ← calcR_eq_bitlength m r h, Nat.add_sub_cancel]

/-- A bit string is its bits at positions `1, 2, …`. -/
theorem range'_map_bit (D : BitString) : (List.range' 1 D.length).map (bit D) = D := by
  refine word_ext (by simp) fun p h1 h2 => ?_
  obtain ⟨d, rfl⟩ := Nat.exists_eq_add_of_le' h1
  have inside : d < D.length := by simpa using h2
  simp [inside, Nat.add_comm 1 d]

/-- Settles O35: the numbers of the data positions are `1..m` in this order, and every data position holds the data bit
of its number. -/
theorem interleavePlacesDataBits : Obligations.InterleavePlacesDataBits := by
  intro D r count
  obtain ⟨S, ok⟩ : ∃ S, interleave D r = .ok S := ⟨_, (interleave_eq_ok_iff D r _).mpr ⟨count, rfl⟩⟩
  obtain ⟨len, bits⟩ := interleave_bits D r S ok
  have numbers := calcR_dataPositions_map_index count
  have data : ∀ p, 1 ≤ p → p ≤ D.length + r → ispow2 p = false → bit S p = bit D (p - bitlength p) :=
    fun p h1 h2 hp => by rw [bits p h1 h2, hp, if_neg Bool.false_ne_true]
  rw [← len] at numbers bits data
  refine ⟨S, ok, len, fun p h1 h2 hp => by rw [bits p h1 h2, if_pos hp], fun p h1 h2 hp => ?_, fun k h1 h2 => ?_, ?_⟩
  · have number : p - bitlength p ∈ List.range' 1 D.length :=
      numbers ▸ List.mem_map_of_mem ((mem_dataPositions _ p).mpr ⟨⟨h1, h2⟩, hp⟩)
    obtain ⟨one_le, lt⟩ := List.mem_range'_1.mp number
    exact ⟨one_le, by omega, data p h1 h2 hp⟩
  · have kth : ((dataPositions S.length).map fun p => p - bitlength p)[k - 1]? = some k := by
      rw [numbers, List.getElem?_range' (by omega)]
      congr 1
      omega
    rwa [List.getElem?_map, Option.map_eq_some_iff] at kth
  · calc (dataPositions S.length).map (bit S)
        = (dataPositions S.length).map (bit D ∘ fun p => p - bitlength p) := List.map_congr_left fun p hp => by
          obtain ⟨⟨h1, h2⟩, hp⟩ := (mem_dataPositions _ p).mp hp
          exact data p h1 h2 hp
      _ = (List.range' 1 D.length).map (bit D) := by rw [← List.map_map, numbers]
      _ = D := range'_map_bit D

/-! ### The text formulation (41_interleaver.md R92) -/

/-- Reading the tail of a text: the `k`-th character from the right is that of bit `k + 1`. -/
theorem text_reverse_getD (D : BitString) (k : Nat) : (text D).reverse.getD k '0' = bitChar (bit D (k + 1)) := by
  rw [text, ← List.map_reverse, List.reverse_reverse, bit_succ]
  exact List.getD_map D false bitChar

/-- The two loops take the same branches, and write a bit and its character. -/
theorem placeTextFrom_text (D : BitString) (r count p k i : Nat) :
    placeTextFrom (text D) r count p k i = (placeFrom D r count p k i).map bitChar := by
  induction count generalizing p k i with
  | zero => rfl
  | succ count ih =>
    unfold placeTextFrom placeFrom
    split
    · rw [ih, List.map_cons]
      rfl
    · rw [ih, text_reverse_getD, List.map_cons]

/-- The check of the count does not look at the result. -/
theorem forCount_map {α β : Type} (f : α → β) (m r : Nat) (x : α) :
    forCount m r (f x) = (forCount m r x).map f := by
  unfold forCount
  cases calcR m with
  | error c => rfl
  | ok r' =>
    dsimp only
    split
    · rfl
    · rfl

/-- The two formulations agree for every count, in their refusals too. -/
theorem interleaveText_text (D : BitString) (r : Nat) : interleaveText (text D) r = (interleave D r).map text := by
  rw [interleaveText, placeTextFrom_text, text_length, ← List.map_reverse]
  exact forCount_map text _ _ _

/-- Settles O36: the text formulation answers the text of what INTERLEAVE answers. -/
theorem interleaveTextAgrees : Obligations.InterleaveTextAgrees := by
  intro D r S ok
  rw [interleaveText_text, ok]
  rfl

end Sys2Proof.Machine
end

section
/-! The parity computer (spec/42_parity_computer.md): a coverage set contains no parity position but its own, so the
parity values do not depend on one another, and the parity over a coverage set is the parity bit against the data bits. -/

namespace Sys2Proof.Machine

/-! ### Any order of the indices (R105) -/

/-- Writes at different positions commute. -/
theorem setbit_comm {p q : Nat} (h : p ≠ q) (S : BitString) (v w : Bool) :
    setbit (setbit S p v) q w = setbit (setbit S q w) p v := by
  refine word_ext (by simp) fun j _ _ => ?_
  simp only [bit_setbit, setbit_length]
  by_cases hj : j = p
  · subst hj
    simp [h]
  · simp [hj]

/-- Values fixed beforehand and written at the parity positions give one word in any order. -/
theorem writes_perm {l l' : List Nat} (h : l.Perm l') (f : Nat → Bool) (S : BitString) :
    l.foldl (fun T i => setbit T (2 ^ i) (f i)) S = l'.foldl (fun T i => setbit T (2 ^ i) (f i)) S := by
  refine h.foldl_eq' (fun i _ k _ T => ?_) S
  by_cases hik : i = k
  · rw [hik]
  · exact setbit_comm (fun e => hik (Nat.pow_right_injective (Nat.le_refl 2) e)) T _ _

/-- Bits that are 0 may be left out of an XOR. -/
theorem xorAll_map_filter {α : Type} (l : List α) (keep f : α → Bool) (zero : ∀ a, keep a = false → f a = false) :
    xorAll ((l.filter keep).map f) = xorAll (l.map f) := by
  induction l with
  | nil => rfl
  | cons a l ih =>
    cases ha : keep a with
    | true => simp [ha, ih]
    | false => simp [ha, ih, zero a ha]

/-- Settles O39: all parity values are those of the given sequence, and writes at different positions commute. -/
theorem parityOrderDoesNotMatter : Obligations.ParityOrderDoesNotMatter := by
  intro S r order perm
  have distinct : order.Nodup := perm.nodup_iff.mpr List.nodup_range
  rw [parity, parityFrom_eq order distinct, parityFrom_eq _ List.nodup_range]
  refine ⟨writes_perm perm _ S, perm.map _, rfl, fun i placeholder => (xorAll_map_filter _ _ _ fun j hj => ?_).symm⟩
  obtain rfl : j = 2 ^ i := by simpa using hj
  exact placeholder

/-! ### The data bits of a coverage set (R101 (a)) -/

/-- Every covered position but the parity position itself is a data position. -/
theorem ispow2_eq_false_of_mem_cov {n i j : Nat} (covered : j ∈ cov n i) (other : j ≠ 2 ^ i) : ispow2 j = false := by
  rw [Bool.eq_false_iff, ne_eq, ispow2_iff]
  rintro ⟨k, rfl⟩
  obtain ⟨-, -, bit_set⟩ := (mem_cov _ _ _).mp covered
  rw [Nat.testBit_two_pow, decide_eq_true_iff] at bit_set
  exact other (by rw [bit_set])

/-- The bits observed when the parity position reads 0. -/
theorem observed_blank (S : BitString) (i : Nat) :
    observed (setbit S (2 ^ i) false) i = (cov S.length i).map fun j => if j = 2 ^ i then false else bit S j := by
  rw [observed, setbit_length]
  refine List.map_congr_left fun j covered => ?_
  obtain ⟨-, inside, -⟩ := (mem_cov _ _ _).mp covered
  by_cases hj : j = 2 ^ i
  · subst hj
    simp [bit_setbit, Nat.one_le_two_pow, inside]
  · simp [bit_setbit, hj]

/-- `C` and `S` have the same bits at the data positions of words of one length. -/
structure SameData (C S : BitString) : Prop where
  length : C.length = S.length
  data : ∀ p, 1 ≤ p → p ≤ S.length → ispow2 p = false → bit C p = bit S p

/-- With the parity position reading 0, what is observed depends on the data bits only. -/
theorem SameData.observed_blank_eq {C S : BitString} (same : SameData C S) (i : Nat) :
    observed (setbit C (2 ^ i) false) i = observed (setbit S (2 ^ i) false) i := by
  obtain ⟨len, data⟩ := same
  rw [observed_blank, observed_blank, len]
  refine List.map_congr_left fun j covered => ?_
  obtain ⟨one_le, inside, -⟩ := (mem_cov _ _ _).mp covered
  by_cases hj : j = 2 ^ i
  · rw [if_pos hj, if_pos hj]
  · rw [if_neg hj, if_neg hj, data j one_le inside (ispow2_eq_false_of_mem_cov covered hj)]

/-- Even parity over a coverage set determines the parity bit: it is the XOR of the covered data bits. -/
theorem bit_two_pow_of_even {C : BitString} {i : Nat} (inside : 2 ^ i ≤ C.length)
    (even : xorAll (observed C i) = false) : bit C (2 ^ i) = xorAll (observed (setbit C (2 ^ i) false) i) := by
  rw [xorAll_observed_setbit C _ i false Nat.one_le_two_pow inside, even]
  simp

/-- Words with the same data bits and even parity over the coverage sets of all their parity positions are equal. -/
theorem SameData.eq_of_even {C S : BitString} (same : SameData C S)
    (evenC : ∀ i, 2 ^ i ≤ S.length → xorAll (observed C i) = false)
    (evenS : ∀ i, 2 ^ i ≤ S.length → xorAll (observed S i) = false) : C = S := by
  refine word_ext same.length fun p one_le insideC => ?_
  have inside : p ≤ S.length := same.length ▸ insideC
  cases hp : ispow2 p with
  | false => exact same.data p one_le inside hp
  | true =>
    obtain ⟨i, rfl⟩ := (ispow2_iff p).mp hp
    rw [bit_two_pow_of_even insideC (evenC i inside), bit_two_pow_of_even inside (evenS i inside),
      same.observed_blank_eq i]

/-! ### PARITY on an interleaved word (R106, R107) -/

/-- PARITY writes no data position. -/
theorem parity_sameData (S : BitString) (r : Nat) : SameData (parity S r).1 S := by
  refine ⟨parity_length S r, fun p _ _ data => bit_parity_other S r p ?_⟩
  rintro i - rfl
  rw [(ispow2_iff _).mpr ⟨i, rfl⟩] at data
  cases data

section
variable {D S : BitString} {r : Nat}

/-- The parity positions of an interleaved word are those of the indices below `r`. -/
theorem interleave_two_pow_le_iff (ok : interleave D r = .ok S) (i : Nat) : 2 ^ i ≤ S.length ↔ i < r := by
  obtain ⟨count, -⟩ := (interleave_eq_ok_iff D r S).mp ok
  obtain ⟨len, -⟩ := interleave_bits D r S ok
  obtain ⟨-, -, -, hi⟩ := calcR_brackets _ r count
  obtain ⟨-, -, inside⟩ := calcR_positions count
  rw [len]
  exact ⟨fun le => (Nat.pow_lt_pow_iff_right Nat.one_lt_two).mp (by omega), inside i⟩

/-- INTERLEAVE leaves the placeholder 0 at every parity position. -/
theorem interleave_placeholder (ok : interleave D r = .ok S) {i : Nat} (hi : i < r) : bit S (2 ^ i) = false := by
  have inside := (interleave_two_pow_le_iff ok i).mpr hi
  obtain ⟨len, bits⟩ := interleave_bits D r S ok
  rw [bits _ Nat.one_le_two_pow (len ▸ inside), if_pos ((ispow2_iff _).mpr ⟨i, rfl⟩)]

/-- PARITY makes the parity over every coverage set of an interleaved word even. -/
theorem interleave_parity_even (ok : interleave D r = .ok S) {i : Nat} (hi : i < r) :
    xorAll (observed (parity S r).1 i) = false :=
  parity_even S r i hi (interleave_placeholder ok hi) ((interleave_two_pow_le_iff ok i).mpr hi)

/-- The bits that PARITY observes in an interleaved word are the codeword's, with 0 at the parity position itself. -/
theorem interleave_observed_eq (ok : interleave D r = .ok S) {i : Nat} (hi : i < r) :
    observed S i = (cov S.length i).map fun j => if j = 2 ^ i then false else bit (parity S r).1 j := by
  have blank : setbit S (2 ^ i) false = S := word_ext (by simp) fun p _ _ => by
    rw [bit_setbit]
    split
    case isTrue h => rw [h.1, interleave_placeholder ok hi]
    case isFalse => rfl
  calc observed S i = observed (setbit S (2 ^ i) false) i := by rw [blank]
    _ = observed (setbit (parity S r).1 (2 ^ i) false) i := ((parity_sameData S r).observed_blank_eq i).symm
    _ = _ := by rw [observed_blank, parity_length]

end

/-- Settles O40: PARITY keeps the data bits and makes every parity even, and the data bits determine each parity bit
of an even word. -/
theorem codewordIsTheEvenWord : Obligations.CodewordIsTheEvenWord := by
  intro D r S ok
  obtain ⟨len, data⟩ := parity_sameData S r
  refine ⟨len, fun i hi => interleave_parity_even ok hi, data, fun C lenC evenC dataC => ?_⟩
  have same : SameData C (parity S r).1 :=
    ⟨lenC.trans len.symm, fun p h1 h2 hp => (dataC p h1 (len ▸ h2) hp).trans (data p h1 (len ▸ h2) hp).symm⟩
  have index_lt : ∀ i, 2 ^ i ≤ (parity S r).1.length → i < r := fun i inside =>
    (interleave_two_pow_le_iff ok i).mp (len ▸ inside)
  exact same.eq_of_even (fun i inside => evenC i (index_lt i inside)) fun i inside =>
    interleave_parity_even ok (index_lt i inside)

/-- Settles O41: the trace is that of the interleaved word, whose bits are the codeword's but for the placeholders. -/
theorem encoderTraceObservesPlaceholders : Obligations.EncoderTraceObservesPlaceholders := by
  intro D e ok
  obtain ⟨S, interleaved, encoded⟩ := (encodeAbstract_ok_iff D e).mp ok
  generalize e.r = r at interleaved encoded
  subst encoded
  have trace := parity_trace S r
  refine ⟨by simp [trace], fun i h => ?_⟩
  have hi : i < r := by simpa [trace] using h
  have entry : (parity S r).2[i] = traceEntry S i := by simp [trace]
  have inside := (interleave_two_pow_le_iff interleaved i).mpr hi
  dsimp only
  rw [entry, parity_length]
  exact ⟨rfl, rfl, rfl, interleave_observed_eq interleaved hi, rfl, (bit_parity_at S r i hi inside).symm⟩

end Sys2Proof.Machine
end

section
/-! The syndrome decoder (spec/43_syndrome_decoder.md): the ErrorPosition is a number given by its binary digits, it is 0
for a codeword, and each flip XORs its own position into it. -/

namespace Sys2Proof.Machine

/-! ### The ErrorPosition as a sum (R112) -/

/-- The `r` low binary digits of a number, each with its weight, add up to its remainder modulo `2 ^ r`. -/
theorem sum_binary_digits (x r : Nat) :
    ((List.range r).map fun i => (x.testBit i).toNat * 2 ^ i).sum = x % 2 ^ r := by
  induction r with
  | zero => simp [Nat.mod_one]
  | succ r ih =>
    rw [Nat.mod_pow_succ, ← Nat.toNat_testBit, ← ih]
    simp [List.range_succ, Nat.mul_comm]

/-- Settles O42: the syndrome bits are the binary digits of the ErrorPosition, which fits in `r` of them. -/
theorem errorPositionIsSyndromeNumber : Obligations.ErrorPositionIsSyndromeNumber := by
  intro X r
  have digit : ∀ i, i < r → (syndrome X r).1.testBit i = xorAll (observed X i) := fun i hi => by
    simp [syndrome_testBit, hi]
  refine ⟨?_, syndrome_lt X r, digit⟩
  calc (syndrome X r).1 = (syndrome X r).1 % 2 ^ r := (Nat.mod_eq_of_lt (syndrome_lt X r)).symm
    _ = ((List.range r).map fun i => ((syndrome X r).1.testBit i).toNat * 2 ^ i).sum := (sum_binary_digits _ r).symm
    _ = _ := congrArg List.sum (List.map_congr_left fun i hi => by rw [digit i (List.mem_range.mp hi)])

/-! ### Codewords and their flips (R116) -/

section
variable {C : BitString} {r : Nat}

/-- A codeword is what PARITY makes of an interleaved word. -/
theorem IsCodeword.eq_parity (code : IsCodeword C r) : ∃ D S, interleave D r = .ok S ∧ C = (parity S r).1 := by
  obtain ⟨D, e, ok, rfl, rfl⟩ := code
  obtain ⟨S, interleaved, encoded⟩ := (encodeAbstract_ok_iff D e).mp ok
  exact ⟨D, S, interleaved, congrArg EncodeOk.codeword encoded⟩

/-- The length of a codeword is that of data for which CALCR answers `r`, and the `r` parity bits. -/
theorem IsCodeword.length_eq (code : IsCodeword C r) : ∃ m, calcR m = .ok r ∧ C.length = m + r := by
  obtain ⟨D, S, interleaved, rfl⟩ := code.eq_parity
  obtain ⟨len, -⟩ := interleave_bits D r S interleaved
  exact ⟨D.length, ((interleave_eq_ok_iff D r S).mp interleaved).1, (parity_length S r).trans len⟩

/-- Every position of a codeword is a number of `r` binary digits. -/
theorem IsCodeword.length_lt (code : IsCodeword C r) : C.length < 2 ^ r := by
  obtain ⟨m, count, len⟩ := code.length_eq
  obtain ⟨-, -, -, hi⟩ := calcR_brackets m r count
  rwa [len]

/-- DECODE accepts a word of a codeword's length with the codeword's `r` (47_decode_command.md R163). -/
theorem IsCodeword.consistent (code : IsCodeword C r) : rconsistent C.length r = true := by
  obtain ⟨m, count, len⟩ := code.length_eq
  obtain ⟨one_le, -⟩ := calcR_brackets m r count
  rw [rconsistent_iff, len, Nat.add_sub_cancel]
  exact ⟨by omega, count⟩

/-- The ErrorPosition of a codeword is 0 (R116 (a)): every parity is even. -/
theorem IsCodeword.syndrome_eq_zero (code : IsCodeword C r) : (syndrome C r).1 = 0 := by
  obtain ⟨D, S, interleaved, rfl⟩ := code.eq_parity
  refine Nat.eq_of_testBit_eq fun i => ?_
  rw [syndrome_testBit, Nat.zero_testBit]
  by_cases hi : i < r
  · rw [interleave_parity_even interleaved hi, Bool.and_false]
  · simp [hi]

/-- The ErrorPosition of a flipped codeword is the XOR of the flipped positions (R116 (c)). -/
theorem IsCodeword.syndrome_of_flips (code : IsCodeword C r) (E : List Nat) (inside : ∀ p ∈ E, 1 ≤ p ∧ p ≤ C.length) :
    (syndrome (flipAll C E) r).1 = E.foldl (fun a p => a ^^^ p) 0 := by
  rw [syndrome_flipAll C r E inside code.length_lt, code.syndrome_eq_zero, Nat.zero_xor]

end

/-- Settles O43: a codeword has the ErrorPosition 0, and each flip XORs its position into it. -/
theorem syndromeIsXorOfFlips : Obligations.SyndromeIsXorOfFlips := fun _ _ E code inside =>
  code.syndrome_of_flips E inside

/-! ### Two flips (R117) -/

/-- The flipped position reads inverted. -/
theorem bit_flipAt_same {S : BitString} {p : Nat} (one_le : 1 ≤ p) (inside : p ≤ S.length) :
    bit (flipAt S p) p = !bit S p := by
  rw [flipAt, bit_setbit, if_pos ⟨rfl, one_le, inside⟩]

/-- A flip leaves every other position unchanged. -/
theorem bit_flipAt_other (S : BitString) {p q : Nat} (ne : q ≠ p) : bit (flipAt S p) q = bit S q := by
  rw [flipAt, bit_setbit, if_neg fun h => ne h.1]

/-- Flips leave every position outside their list unchanged. -/
theorem bit_flipAll_of_notMem (S : BitString) {E : List Nat} {q : Nat} (notMem : q ∉ E) :
    bit (flipAll S E) q = bit S q := by
  induction E generalizing S with
  | nil => rfl
  | cons p E ih =>
    rw [List.mem_cons, not_or] at notMem
    obtain ⟨ne, notMem'⟩ := notMem
    exact (ih (flipAt S p) notMem').trans (bit_flipAt_other S ne)

/-- A position flipped once, whatever else is flipped after it, makes another word. -/
theorem flipAll_cons_ne {S : BitString} {p : Nat} {E : List Nat} (one_le : 1 ≤ p) (inside : p ≤ S.length)
    (once : p ∉ E) : flipAll S (p :: E) ≠ S := fun same => by
  have inverted : bit (flipAll S (p :: E)) p = !bit S p :=
    (bit_flipAll_of_notMem (flipAt S p) once).trans (bit_flipAt_same one_le inside)
  rw [same] at inverted
  exact (Bool.eq_not_self _).mp inverted

/-- The XOR of two different positive numbers is neither 0 nor one of the two. -/
theorem xor_ne_of_pos {p q : Nat} (hp : 1 ≤ p) (hq : 1 ≤ q) (ne : p ≠ q) :
    p ^^^ q ≠ 0 ∧ p ^^^ q ≠ p ∧ p ^^^ q ≠ q := by
  refine ⟨fun h => ne (Nat.xor_eq_zero_iff.mp h), fun h => ?_, fun h => ?_⟩
  · have : q = 0 := Nat.xor_right_injective (h.trans (Nat.xor_zero p).symm)
    omega
  · have : p = 0 := Nat.xor_left_injective (h.trans (Nat.zero_xor q).symm)
    omega

/-- Settles O44: the ErrorPosition of two flips is `p ^ q`, which is neither 0 nor one of the two, so that DECODE flips a
third bit where it flips one at all, and leaves `p` inverted. -/
theorem twoFlipsAreNotCorrected : Obligations.TwoFlipsAreNotCorrected := by
  intro C r p q code hp insideP hq insideQ ne
  obtain ⟨ne_zero, ne_p, ne_q⟩ := xor_ne_of_pos hp hq ne
  have position : (syndrome (flipAll C [p, q]) r).1 = p ^^^ q := by
    rw [code.syndrome_of_flips [p, q] (by simp [hp, insideP, hq, insideQ])]
    simp
  obtain ⟨-, inside, beyond⟩ := decodeAbstract_consistent (flipAll C [p, q]) r (by
    rw [flipAll_length]
    exact code.consistent)
  rw [position, flipAll_length] at inside beyond
  refine ⟨⟨ne_zero, ne_p, ne_q⟩, fun le => ?_, fun lt => ⟨_, beyond lt⟩, fun perfect => ?_⟩
  · have another : flipAll C [p, q, p ^^^ q] ≠ C := flipAll_cons_ne hp insideP (by simp [ne, ne_p.symm])
    exact ⟨_, inside (Nat.pos_of_ne_zero ne_zero) le, rfl, rfl, fun h => another (Option.some.inj h)⟩
  · have := code.length_lt
    have := Nat.xor_lt_two_pow (show p < 2 ^ r by omega) (show q < 2 ^ r by omega)
    omega

end Sys2Proof.Machine
end

section
/-! The Corrector (spec/44_corrector.md): CORRECT refuses the positions outside the word (R121), and inside the word it is
a flip (R123), which is its own inverse (R125). -/

namespace Sys2Proof.Machine

section
variable {X : BitString} {pos : Nat}

/-- CORRECT refuses a position outside the word. -/
theorem correct_of_outside (outside : pos = 0 ∨ X.length < pos) : correct X pos = .error .badPosition :=
  if_pos outside

/-- Inside the word CORRECT answers the word with that position flipped. -/
theorem correct_of_inside (one_le : 1 ≤ pos) (inside : pos ≤ X.length) : correct X pos = .ok (flipAt X pos) :=
  if_neg (by omega)

/-- A flip inside the word inverts the flipped position and no other. -/
theorem bit_flipAt (one_le : 1 ≤ pos) (inside : pos ≤ X.length) (p : Nat) :
    bit (flipAt X pos) p = (bit X p ^^ decide (p = pos)) := by
  by_cases same : p = pos
  · subst same
    simp [bit_flipAt_same one_le inside]
  · simp [bit_flipAt_other X same, same]

/-- Correcting a position and then the same position again gives the word back (R125). -/
theorem correct_flipAt (one_le : 1 ≤ pos) (inside : pos ≤ X.length) : correct (flipAt X pos) pos = .ok X := by
  rw [correct_of_inside one_le (by rwa [flipAt_length]), flipAt_flipAt]

end

/-- Settles O50: CORRECT is the flip of one position inside the word, and refuses every position outside it. -/
theorem correctFlipsExactlyOnePosition : Obligations.CorrectFlipsExactlyOnePosition := fun X pos =>
  ⟨correct_of_outside, fun one_le inside => ⟨flipAt X pos, correct_of_inside one_le inside, flipAt_length X pos,
    fun p _ _ => bit_flipAt one_le inside p, correct_flipAt one_le inside⟩⟩

end Sys2Proof.Machine
end

section
/-! The sequencer's handshake and its steps accept ENCODE, accept DECODE and CountParityBits (spec/45_sequencer.md R132
to R134, R144), and its progress (R145): every step in a working phase lowers the number of steps that are left. -/

namespace Sys2Proof.Machine

/-! ### The checks of the accept steps -/

section
variable {W : Nat} {len r : BitVec (LW W)} {bits : BitVec W}

theorem strayBits_iff_bitAbove (n : Nat) (b : BitVec W) : strayBits n b = true ↔ bitAbove n b := strayBits_iff n b

theorem operandFailure_malformed (pos : len.toNat ≠ 0) (inside : len.toNat ≤ W) (stray : bitAbove len.toNat bits) :
    operandFailure len bits = some .malformed := by
  simp [operandFailure, pos, Nat.not_lt.mpr inside, (strayBits_iff_bitAbove _ bits).mpr stray]

theorem operandFailure_none (pos : len.toNat ≠ 0) (inside : len.toNat ≤ W) (clean : ¬ bitAbove len.toNat bits) :
    operandFailure len bits = none := by
  rw [← strayBits_iff_bitAbove, Bool.not_eq_true] at clean
  exact (operandFailure_none_iff len bits).mpr ⟨Nat.one_le_iff_ne_zero.mpr pos, inside, clean⟩

/-- `rconsistent` in the words of 47_decode_command.md R163, with the data length `m`. -/
theorem rconsistent_iff_exists (n r : Nat) :
    rconsistent n r = true ↔ ∃ m, 1 ≤ m ∧ m + r = n ∧ calcR m = .ok r := by
  rw [rconsistent_iff]
  constructor
  · rintro ⟨lt, count⟩
    exact ⟨n - r, by omega, by omega, count⟩
  · rintro ⟨m, one_le, rfl, count⟩
    exact ⟨by omega, by rwa [Nat.add_sub_cancel]⟩

theorem decodeFailure_of_operandFailure {c : Cause} (h : operandFailure len bits = some c) :
    decodeFailure len r bits = some c := by
  simp [decodeFailure, h]

theorem decodeFailure_rMismatch (valid : operandFailure len bits = none)
    (mismatch : rconsistent len.toNat r.toNat = false) : decodeFailure len r bits = some .rMismatch := by
  simp [decodeFailure, valid, mismatch]

end

/-! ### What the accept steps and CountParityBits do -/

section
variable {W : Nat} {ins : List (PortIn W)} {g : Regs W} {len r : BitVec (LW W)} {bits : BitVec W} {p : PortIn W}

theorem exec_encode_idle (hp : g.phase = .idle) :
    exec (.encode len.toNat r.toNat bits.toNat) ⟨W, ins, g⟩ = .next ⟨W, ins, acceptEncode len r bits g⟩ := by
  simp [exec_eq, effect, hp]

theorem exec_decode_idle (hp : g.phase = .idle) :
    exec (.decode len.toNat r.toNat bits.toNat) ⟨W, ins, g⟩ = .next ⟨W, ins, acceptDecode len r bits g⟩ := by
  simp [exec_eq, effect, hp]

theorem exec_calcr_countParityBits (hp : g.phase = .countParityBits) :
    exec .calcr ⟨W, ins, g⟩ = .next ⟨W, ins, countParityBits g⟩ := by
  simp [exec_eq, effect, hp]

/-- An operand that fails a check takes accept ENCODE to InvalidInput. -/
theorem exec_encode_rejects (hp : g.phase = .idle) {c : Cause} (h : operandFailure len bits = some c) :
    exec (.encode len.toNat r.toNat bits.toNat) ⟨W, ins, g⟩ =
      .next ⟨W, ins, failed c (latch 0#1 len r bits g)⟩ := by
  rw [exec_encode_idle hp, acceptEncode, h]
  rfl

theorem exec_encode_accepts (hp : g.phase = .idle) (h : operandFailure len bits = none) :
    exec (.encode len.toNat r.toNat bits.toNat) ⟨W, ins, g⟩ =
      .next ⟨W, ins, { latch 0#1 len r bits g with wM := len, phase := .countParityBits }⟩ := by
  rw [exec_encode_idle hp, acceptEncode, h]

/-- An operand or an `r` that fails a check takes accept DECODE to InvalidInput. -/
theorem exec_decode_rejects (hp : g.phase = .idle) {c : Cause} (h : decodeFailure len r bits = some c) :
    exec (.decode len.toNat r.toNat bits.toNat) ⟨W, ins, g⟩ =
      .next ⟨W, ins, failed c (latch 1#1 len r bits g)⟩ := by
  rw [exec_decode_idle hp, acceptDecode, h]
  rfl

theorem exec_decode_accepts (hp : g.phase = .idle) (h : decodeFailure len r bits = none) :
    exec (.decode len.toNat r.toNat bits.toNat) ⟨W, ins, g⟩ =
      .next ⟨W, ins, { latch 1#1 len r bits g with wN := len, wR := r, phase := .computeSyndrome }⟩ := by
  rw [exec_decode_idle hp, acceptDecode, h]

theorem countParityBits_empty (h : g.wM.toNat = 0) : countParityBits g = failed .empty g := by
  rw [countParityBits, h, calcR_zero]
  rfl

theorem countParityBits_capacity {n : Nat} (count : calcR g.wM.toNat = .ok n) (exceeds : W < g.wM.toNat + n) :
    countParityBits g = failed .capacity g := by
  rw [countParityBits, count]
  exact if_pos exceeds

theorem countParityBits_stores {n : Nat} (count : calcR g.wM.toNat = .ok n) (fits : g.wM.toNat + n ≤ W) :
    countParityBits g =
      { g with wR := BitVec.ofNat _ n, wN := BitVec.ofNat _ (g.wM.toNat + n), phase := .interleave } := by
  rw [countParityBits, count]
  exact if_neg (Nat.not_lt.mpr fits)

/-- Every number up to `W` is stored untruncated in a length register. -/
theorem toNat_ofNat_LW {n : Nat} (h : n ≤ W) : (BitVec.ofNat (LW W) n).toNat = n :=
  (BitVec.toNat_ofNat n _).trans (Nat.mod_eq_of_lt (lt_two_pow_LW W n h))

end

/-- Settles O13: the checks of R132 in their order, then the accepting exit. -/
theorem encodeRequestIsAccepted : Obligations.EncodeRequestIsAccepted := by
  intro W ins g len r bits q hp hq
  obtain rfl : q = latch 0#1 len r bits g := hq
  refine ⟨fun empty => exec_encode_rejects hp (operandFailure_empty len bits empty),
    fun pos exceeds => exec_encode_rejects hp (operandFailure_capacity len bits pos exceeds),
    fun pos inside stray => exec_encode_rejects hp (operandFailure_malformed pos inside stray),
    fun pos inside clean => exec_encode_accepts hp (operandFailure_none pos inside clean), ?_⟩
  rintro p hq op rfl rfl rfl
  rw [step_cons, stepRegs_idle_request hp hq, if_pos op, exec_encode_idle hp]

/-- Settles O14: the checks of R133 in their order, R_MISMATCH the last, then the accepting exit. -/
theorem decodeRequestIsAccepted : Obligations.DecodeRequestIsAccepted := by
  intro W ins g len r bits q hp hq
  obtain rfl : q = latch 1#1 len r bits g := hq
  have rejects : ∀ {c}, operandFailure len bits = some c → exec (.decode len.toNat r.toNat bits.toNat) ⟨W, ins, g⟩ =
      .next ⟨W, ins, failed c (latch 1#1 len r bits g)⟩ :=
    fun h => exec_decode_rejects hp (decodeFailure_of_operandFailure h)
  refine ⟨fun empty => rejects (operandFailure_empty len bits empty),
    fun pos exceeds => rejects (operandFailure_capacity len bits pos exceeds),
    fun pos inside stray => rejects (operandFailure_malformed pos inside stray),
    fun pos inside clean mismatch => ?_, fun pos inside clean consistent => ?_, ?_⟩
  · rw [← rconsistent_iff_exists, Bool.not_eq_true] at mismatch
    exact exec_decode_rejects hp (decodeFailure_rMismatch (operandFailure_none pos inside clean) mismatch)
  · rw [← rconsistent_iff_exists] at consistent
    exact exec_decode_accepts hp
      ((decodeFailure_none_iff len r bits).mpr ⟨operandFailure_none pos inside clean, consistent⟩)
  · rintro p hq op rfl rfl rfl
    rw [step_cons, stepRegs_idle_request hp hq, if_neg (by simp [op]), exec_decode_idle hp]

/-- Settles O15: the least count is CALCR's answer, and a sum within `W` fits the length registers. -/
theorem calcrStepCountsParityBits : Obligations.CalcrStepCountsParityBits := by
  intro W ins g hp
  rw [exec_calcr_countParityBits hp]
  refine ⟨fun empty => by rw [countParityBits_empty empty], fun r one_le fits least => ?_, fun p hr => ?_⟩
  · have count : calcR g.wM.toNat = .ok r := (calcR_eq_ok_iff _ r).mpr ⟨by omega, fits, least⟩
    exact ⟨fun exceeds => by rw [countParityBits_capacity count exceeds], fun inside =>
      ⟨_, _, toNat_ofNat_LW (by omega), toNat_ofNat_LW inside, by rw [countParityBits_stores count inside]⟩⟩
  · rw [step_cons, stepRegs_countParityBits hr hp]

/-! ### Progress (R145) -/

/-- The number of steps a command takes at most from a phase to its terminal phase: the length of the longest path in
the state machine of 45_sequencer.md R130. -/
def stepsLeft : Phase → Nat
  | .countParityBits => 3
  | .interleave => 2
  | .computeParity => 1
  | .computeSyndrome => 2
  | .singleBitError => 1
  | .idle => 0
  | .encoded => 0
  | .noError => 0
  | .corrected => 0
  | .uncorrectableError => 0
  | .invalidInput => 0

/-- From the phase `p` a command is under way, or answered, with at most `n` steps left. -/
def AnswersWithin (n : Nat) (p : Phase) : Prop := p ≠ .idle ∧ stepsLeft p ≤ n

theorem stepsLeft_pos_iff (p : Phase) : 0 < stepsLeft p ↔ isWorking p = true := by
  cases p <;> decide

/-- A phase other than Idle is a working phase or a terminal one (45_sequencer.md R131). -/
theorem isTerminal_iff (p : Phase) : isTerminal p = true ↔ p ≠ .idle ∧ isWorking p = false := by
  cases p <;> decide

section
variable {W : Nat} {p : PortIn W} {g : Regs W}

/-- After accept ENCODE at most three steps are left. -/
theorem acceptEncode_answersWithin (len r : BitVec (LW W)) (bits : BitVec W) (g : Regs W) :
    AnswersWithin 3 (acceptEncode len r bits g).phase := by
  rcases acceptEncode_cases len r bits g with ⟨c, -, e⟩ | ⟨-, e⟩ <;> simp [e, AnswersWithin, stepsLeft]

/-- After accept DECODE at most two steps are left. -/
theorem acceptDecode_answersWithin (len r : BitVec (LW W)) (bits : BitVec W) (g : Regs W) :
    AnswersWithin 2 (acceptDecode len r bits g).phase := by
  rcases acceptDecode_cases len r bits g with ⟨c, -, e⟩ | ⟨-, e⟩ <;> simp [e, AnswersWithin, stepsLeft]

theorem stepRegs_request_answersWithin (hp : g.phase = .idle) (hq : Requests p) :
    AnswersWithin (if p.reqOp = 0#1 then 3 else 2) (stepRegs p g).phase := by
  rw [stepRegs_idle_request hp hq]
  split
  · exact acceptEncode_answersWithin _ _ _ g
  · exact acceptDecode_answersWithin _ _ _ g

theorem countParityBits_answersWithin (g : Regs W) : AnswersWithin 2 (countParityBits g).phase := by
  rcases countParityBits_cases g with ⟨c, -, e⟩ | ⟨n, -, -, e⟩ | ⟨n, -, -, e⟩ <;> simp [e, AnswersWithin, stepsLeft]

theorem interleaveStep_answersWithin (g : Regs W) : AnswersWithin 1 (interleaveStep g).phase := by
  rcases interleaveStep_cases g with ⟨c, -, e⟩ | ⟨S, -, e⟩ <;> simp [e, AnswersWithin, stepsLeft]

theorem parityStep_answersWithin (g : Regs W) : AnswersWithin 0 (parityStep g).phase := by
  simp [parityStep, AnswersWithin, stepsLeft]

theorem syndromeStep_answersWithin (g : Regs W) : AnswersWithin 1 (syndromeStep g).phase := by
  rcases syndromeStep_cases g _ rfl with ⟨-, e⟩ | ⟨-, -, e⟩ | ⟨-, e⟩ <;> simp [e, AnswersWithin, stepsLeft]

theorem correctStep_answersWithin (g : Regs W) : AnswersWithin 0 (correctStep g).phase := by
  rcases correctStep_cases g with ⟨-, e⟩ | ⟨-, -, e⟩ <;> simp [e, AnswersWithin, stepsLeft]

/-- Without reset, a step in a working phase uses up one of the steps that are left. -/
theorem stepRegs_working_answersWithin (hr : p.rst = false) (hw : isWorking g.phase = true) :
    AnswersWithin (stepsLeft g.phase - 1) (stepRegs p g).phase := by
  cases hp : g.phase with
  | countParityBits => rw [stepRegs_countParityBits hr hp]; exact countParityBits_answersWithin g
  | interleave => rw [stepRegs_interleave hr hp]; exact interleaveStep_answersWithin g
  | computeParity => rw [stepRegs_computeParity hr hp]; exact parityStep_answersWithin g
  | computeSyndrome => rw [stepRegs_computeSyndrome hr hp]; exact syndromeStep_answersWithin g
  | singleBitError => rw [stepRegs_singleBitError hr hp]; exact correctStep_answersWithin g
  | idle | encoded | noError | corrected | uncorrectableError | invalidInput => rw [hp] at hw; cases hw

/-- Fewer steps are left afterwards, so the step leaves its working phase. -/
theorem stepRegs_working_phase_ne (hr : p.rst = false) (hw : isWorking g.phase = true) :
    (stepRegs p g).phase ≠ g.phase := fun same => by
  obtain ⟨-, fewer⟩ := stepRegs_working_answersWithin hr hw
  have left := (stepsLeft_pos_iff g.phase).mpr hw
  rw [same] at fewer
  omega

/-- A run reaches a terminal phase within the steps that are left. -/
theorem core_run_reaches_terminal (n : Nat) : ∀ {ins : List (PortIn W)} {g : Regs W}, AnswersWithin n g.phase →
    (∀ b ∈ ins, Undisturbing b) → ∃ k ins' g', k ≤ n ∧
      Host.Core.run core k ⟨W, ins, g⟩ = .next (⟨W, ins', g'⟩ : State) ∧ isTerminal g'.phase = true := by
  induction n with
  | zero =>
    intro ins g ⟨busy, done⟩ _
    have idle : isWorking g.phase = false := by
      rw [← Bool.not_eq_true, ← stepsLeft_pos_iff]
      omega
    exact ⟨0, ins, g, Nat.le_refl 0, rfl, (isTerminal_iff _).mpr ⟨busy, idle⟩⟩
  | succ n ih =>
    intro ins g ⟨busy, left⟩ hu
    cases hw : isWorking g.phase with
    | false => exact ⟨0, ins, g, Nat.zero_le _, rfl, (isTerminal_iff _).mpr ⟨busy, hw⟩⟩
    | true =>
      obtain ⟨busy', left'⟩ := stepRegs_working_answersWithin (pins_undisturbing hu g).1 hw
      obtain ⟨k, ins', g', le, run, terminal⟩ :=
        ih ⟨busy', by omega⟩ fun b hb => hu b (List.mem_of_mem_tail hb)
      exact ⟨k + 1, ins', g', Nat.succ_le_succ le, by rw [core_run_succ, run], terminal⟩

end

/-- Settles O26: acceptance leaves three steps (ENCODE) or two (DECODE), and every working step uses up one. -/
theorem acceptedRequestReachesTerminalPhase : Obligations.AcceptedRequestReachesTerminalPhase := by
  refine ⟨fun s hw hr => ⟨_, step_eq s, stepRegs_working_phase_ne hr hw⟩, fun W p busy g _ hp hq hu => ?_⟩
  obtain ⟨k, ins', g', le, run, terminal⟩ :=
    core_run_reaches_terminal _ (stepRegs_request_answersWithin hp hq) hu
  have bound : k + 1 ≤ if p.reqOp = 0#1 then 4 else 3 := (Nat.succ_le_succ le).trans_eq (apply_ite (· + 1) _ 3 2)
  exact ⟨k + 1, ins', g', bound, by rw [core_run_succ]; exact run, terminal⟩

/-! ### The handshake (R144) -/

section
variable {W : Nat} {p p' : PortIn W} {g : Regs W}

theorem reqReady_iff (g : Regs W) : reqReady g = true ↔ g.phase = .idle := beq_iff_eq

theorem rspValid_iff (g : Regs W) : rspValid g = true ↔ g.phase = .encoded ∨ g.phase = .noError ∨
    g.phase = .corrected ∨ g.phase = .uncorrectableError ∨ g.phase = .invalidInput := by
  rw [rspValid]
  cases g.phase <;> decide

/-- Outside Idle a step sees only `rst` and `rsp_ack` of the pins. -/
theorem stepRegs_congr_of_ne_idle (hp : g.phase ≠ .idle) (rst : p.rst = p'.rst) (ack : p.rspAck = p'.rspAck) :
    stepRegs p g = stepRegs p' g := by
  unfold stepRegs
  rw [rst, ack]
  cases h : g.phase with
  | idle => exact absurd h hp
  | _ => rfl

/-- The acknowledge step (45_sequencer.md R141). -/
theorem stepRegs_acknowledge (hp : isTerminal g.phase = true) (hr : p.rst = false) (hack : p.rspAck = true) :
    stepRegs p g = acknowledge g := by
  simp [stepRegs_terminal hr hp, handshake, hp, hack]

/-- Outside the terminal phases a step does not see `rsp_ack`. -/
theorem stepRegs_ack_of_not_terminal (hp : isTerminal g.phase = false) (p : PortIn W) (ack : Bool) :
    stepRegs { p with rspAck := ack } g = stepRegs p g := by
  unfold stepRegs
  cases h : g.phase with
  | encoded | noError | corrected | uncorrectableError | invalidInput => rw [h] at hp; cases hp
  | _ => rfl

end

/-- Settles O9, clause by clause, from what the step does in each kind of phase. -/
theorem handshakeFollowsPhase : Obligations.HandshakeFollowsPhase := by
  intro W ins g
  simp only [step_cons]
  refine ⟨reqReady_iff g, rspValid_iff g, fun p hp hq => ?_, fun p p' hp rst ack => ?_, fun p hp hr hv => ?_,
    fun p hp hr hack => ?_, fun p ack hp => ?_⟩
  · obtain ⟨leaves, -⟩ := stepRegs_request_answersWithin hp hq
    exact ⟨_, rfl, leaves, stepRegs_latches_request hp hq⟩
  · rw [stepRegs_congr_of_ne_idle hp rst ack]
  · rw [stepRegs_idle_wait hr hp hv]
  · rw [stepRegs_acknowledge hp hr hack]
    rfl
  · rw [stepRegs_ack_of_not_terminal hp p ack]

end Sys2Proof.Machine
end

section
/-! DECODE (spec/47_decode_command.md): the lengths and counts it accepts (R163), and the presence of the corrected word
(R166). -/

namespace Sys2Proof.Machine

/-! ### The consistent lengths and counts (R163) -/

/-- The consistent pairs are the lengths that a codeword can have, each with its bitlength. -/
theorem rconsistent_iff_bitlength (n r : Nat) :
    rconsistent n r = true ↔ 3 ≤ n ∧ ispow2 n = false ∧ r = bitlength n := by
  rw [rconsistent_iff_exists, ← exists_calcR_length_iff]
  constructor
  · rintro ⟨m, -, sum, count⟩
    exact ⟨m, count, sum.symm⟩
  · rintro ⟨m, count, length⟩
    obtain ⟨one_le, -⟩ := calcR_brackets m r count
    exact ⟨m, one_le, length.symm, count⟩

/-- Settles O34: `n` is the length of a codeword with `r` parity bits, in the two ways to say it. -/
theorem consistentCountIsBitlength : Obligations.ConsistentCountIsBitlength := fun n r =>
  ⟨rconsistent_iff_exists n r, rconsistent_iff_bitlength n r⟩

/-! ### The corrected word (R166) -/

section
variable {X : BitString} {r : Nat} {d : DecodeOk}

/-- What DECODE can answer when it succeeds: no error and no corrected word, or the word with the position of the
syndrome flipped. -/
theorem decodeAbstract_ok_cases (ok : decodeAbstract X r = .ok d) :
    ((syndrome X r).1 = 0 ∧ d = ⟨0, (syndrome X r).2, none⟩) ∨
    (1 ≤ (syndrome X r).1 ∧ (syndrome X r).1 ≤ X.length ∧
      d = ⟨(syndrome X r).1, (syndrome X r).2, some (flipAt X (syndrome X r).1)⟩) := by
  cases consistent : rconsistent X.length r with
  | false =>
    rw [decodeAbstract_inconsistent X r consistent] at ok
    cases ok
  | true =>
    obtain ⟨noError, inside, beyond⟩ := decodeAbstract_consistent X r consistent
    obtain zero | one_le := Nat.eq_zero_or_pos (syndrome X r).1
    · exact .inl ⟨zero, Except.ok.inj (ok.symm.trans (noError zero))⟩
    obtain lt | le := Nat.lt_or_ge X.length (syndrome X r).1
    · rw [beyond lt] at ok
      cases ok
    · exact .inr ⟨one_le, le, Except.ok.inj (ok.symm.trans (inside one_le le))⟩

end

/-- Settles O48: of the two successful answers exactly the one with a position inside the word carries a corrected
word. -/
theorem correctedPresentExactlyInsideWord : Obligations.CorrectedPresentExactlyInsideWord := by
  intro X r
  refine ⟨fun d ok => ?_, fun _ lt d ok => ?_⟩
  · obtain ⟨zero, rfl⟩ | ⟨one_le, le, rfl⟩ := decodeAbstract_ok_cases ok
    · simp [zero]
    · simp [one_le, le, Nat.ne_of_gt one_le]
  · obtain ⟨zero, -⟩ | ⟨-, le, -⟩ := decodeAbstract_ok_cases ok
    · omega
    · omega

end Sys2Proof.Machine
end

section
/-! The failures of a command (spec/60_exceptions.md): UncorrectableError (R173), and which of the checks that fail
decides the answer (R175). -/

namespace Sys2Proof.Machine

/-! ### The whole commands -/

section
variable {D X : BitString} {r : Nat}

/-- ENCODE succeeds wherever CALCR does, with a codeword of `r` more bits. -/
theorem encodeAbstract_of_calcR (count : calcR D.length = .ok r) :
    ∃ e, encodeAbstract D = .ok e ∧ e.codeword.length = D.length + r := by
  obtain ⟨S, interleaved⟩ : ∃ S, interleave D r = .ok S := ⟨_, (interleave_eq_ok_iff D r _).mpr ⟨count, rfl⟩⟩
  obtain ⟨len, -⟩ := interleave_bits D r S interleaved
  exact ⟨⟨(parity S r).1, r, (parity S r).2⟩, (encodeAbstract_ok_iff D _).mpr ⟨S, interleaved, rfl⟩,
    (parity_length S r).trans len⟩

theorem encodeAbstract_nil : encodeAbstract [] = .error (.invalidInput .empty) := rfl

/-- The failures of ENCODE are those of its operand: data fail as EMPTY or not at all. -/
theorem encodeAbstract_eq_empty_or_ok (D : BitString) :
    encodeAbstract D = .error (.invalidInput .empty) ∨ ∃ e, encodeAbstract D = .ok e := by
  obtain rfl | nonempty := eq_or_ne D []
  · exact .inl encodeAbstract_nil
  · obtain ⟨_, count, -⟩ := calcR_pos D.length (mt List.length_eq_zero_iff.mp nonempty)
    obtain ⟨e, ok, -⟩ := encodeAbstract_of_calcR count
    exact .inr ⟨e, ok⟩

/-- A consistent DECODE whose ErrorPosition does not exceed the length succeeds. -/
theorem decodeAbstract_ok_of_le (consistent : rconsistent X.length r = true) (le : (syndrome X r).1 ≤ X.length) :
    ∃ d, decodeAbstract X r = .ok d := by
  obtain ⟨noError, inside, -⟩ := decodeAbstract_consistent X r consistent
  obtain zero | one_le := Nat.eq_zero_or_pos (syndrome X r).1
  · exact ⟨_, noError zero⟩
  · exact ⟨_, inside one_le le⟩

/-- UncorrectableError is the answer of DECODE exactly to consistent operands whose ErrorPosition exceeds the length. -/
theorem decodeAbstract_uncorrectable_iff (X : BitString) (r : Nat) :
    (∃ pos t, decodeAbstract X r = .error (.uncorrectableError pos t)) ↔
      rconsistent X.length r = true ∧ X.length < (syndrome X r).1 := by
  constructor
  · rintro ⟨pos, t, failure⟩
    cases consistent : rconsistent X.length r with
    | false => exact nomatch (decodeAbstract_inconsistent X r consistent).symm.trans failure
    | true =>
      refine ⟨rfl, Nat.lt_of_not_le fun le => ?_⟩
      obtain ⟨d, ok⟩ := decodeAbstract_ok_of_le consistent le
      exact nomatch ok.symm.trans failure
  · rintro ⟨consistent, lt⟩
    obtain ⟨-, -, beyond⟩ := decodeAbstract_consistent X r consistent
    exact ⟨_, _, beyond lt⟩

end

/-- Settles O49: DECODE by its syndrome, a number of `r` binary digits; ENCODE fails with nothing but EMPTY. -/
theorem uncorrectableExactlyBeyondWord : Obligations.UncorrectableExactlyBeyondWord := by
  refine ⟨decodeAbstract_uncorrectable_iff, fun X r beyond => ?_, fun D pos t failure => ?_⟩
  · have := syndrome_lt X r
    omega
  · obtain empty | ⟨e, ok⟩ := encodeAbstract_eq_empty_or_ok D
    · exact nomatch empty.symm.trans failure
    · exact nomatch ok.symm.trans failure

/-! ### The status and cause pins of an answer that carries a word -/

section
variable {W : Nat} (status : Status) (n r : Nat) (bits : BitVec W) (errpos : Nat) (corrected : Bool)
  (trace : List TraceEntry)

@[simp] theorem rspStatus_wordAnswer :
    rspStatus (wordAnswer W status n r bits errpos corrected trace) = statusCode status := rfl

@[simp] theorem rspCause_wordAnswer : rspCause (wordAnswer W status n r bits errpos corrected trace) = 0#3 := rfl

end

/-! ### The answer to a valid operand, check by check -/

section
variable {W r : Nat} {D X : BitString}

theorem answerEncode_capacity (count : calcR D.length = .ok r) (exceeds : W < D.length + r) :
    answerEncode W D = .invalidInput (some .capacity) := by
  obtain ⟨e, ok, len⟩ := encodeAbstract_of_calcR count
  simp [answerEncode, ok, len, exceeds]

theorem answerEncode_pins (count : calcR D.length = .ok r) (fits : D.length + r ≤ W) :
    rspStatus (answerEncode W D) = 0#2 ∧ rspCause (answerEncode W D) = 0#3 := by
  obtain ⟨e, ok, len⟩ := encodeAbstract_of_calcR count
  simp [answerEncode, ok, len, Nat.not_lt.mpr fits, statusCode]

theorem answerDecode_rMismatch (mismatch : rconsistent X.length r = false) :
    answerDecode W X r = .invalidInput (some .rMismatch) := by
  rw [answerDecode, decodeAbstract_inconsistent X r mismatch]

theorem answerDecode_pins_beyond (consistent : rconsistent X.length r = true) (lt : X.length < (syndrome X r).1) :
    rspStatus (answerDecode W X r) = 2#2 ∧ rspCause (answerDecode W X r) = 0#3 := by
  obtain ⟨-, -, beyond⟩ := decodeAbstract_consistent X r consistent
  simp [answerDecode, beyond lt, statusCode]

theorem answerDecode_pins_within (consistent : rconsistent X.length r = true) (le : (syndrome X r).1 ≤ X.length) :
    rspStatus (answerDecode W X r) = 0#2 ∧ rspCause (answerDecode W X r) = 0#3 := by
  obtain ⟨d, ok⟩ := decodeAbstract_ok_of_le consistent le
  simp [answerDecode, ok, statusCode]

end

/-! ### The answer to a request -/

section
variable {W : Nat} {len r : BitVec (LW W)} {bits : BitVec W}

/-- A check of the operand that fails decides the answer of either command. -/
theorem answer_of_operandFailure (op : BitVec 1) {c : Cause} (h : operandFailure len bits = some c) :
    answer op len r bits = .invalidInput (some c) := by
  rw [answer, h]

theorem answer_encode (valid : operandFailure len bits = none) :
    answer 0#1 len r bits = answerEncode W (ofBus len.toNat bits) := by
  simp [answer, valid]

theorem answer_decode (valid : operandFailure len bits = none) :
    answer 1#1 len r bits = answerDecode W (ofBus len.toNat bits) r.toNat := by
  simp [answer, valid]

end

/-- Settles O29: the operand's three checks in their order, then those of the command on an operand that passed them. -/
theorem firstFailingCheckDecides : Obligations.FirstFailingCheckDecides := by
  intro W op len r bits _
  refine ⟨fun empty => answer_of_operandFailure op (operandFailure_empty len bits empty),
    fun pos exceeds => answer_of_operandFailure op (operandFailure_capacity len bits pos exceeds),
    fun pos inside stray => answer_of_operandFailure op (operandFailure_malformed pos inside stray), ?_, ?_⟩
  · intro T empty c mem
    obtain rfl := (parse_eq_empty_iff T).mp empty
    cases mem
  · intro pos inside clean
    have valid := operandFailure_none pos inside clean
    -- From here on the clauses speak of the operand `X` alone, `len` being its length.
    obtain ⟨X, hX, length⟩ : ∃ X, ofBus len.toNat bits = X ∧ len.toNat = X.length :=
      ⟨_, rfl, (ofBus_length len.toNat bits).symm⟩
    rw [hX, length]
    refine ⟨?_, ?_, ?_, ?_, ?_⟩
    · rintro rfl mismatch
      rw [answer_decode valid, hX, answerDecode_rMismatch mismatch]
    · rintro rfl c count exceeds
      rw [answer_encode valid, hX, answerEncode_capacity count exceeds]
    · rintro rfl consistent lt
      rw [answer_decode valid, hX]
      exact answerDecode_pins_beyond consistent lt
    · rintro rfl consistent le
      rw [answer_decode valid, hX]
      exact answerDecode_pins_within consistent le
    · rintro rfl c count fits
      rw [answer_encode valid, hX]
      exact answerEncode_pins count fits

end Sys2Proof.Machine
end

section
/-! The operand hazards (spec/70_reset_and_hazards.md R205): the `r` of a DECODE is determined by the length of its word. -/

namespace Sys2Proof.Machine

/-- A length is consistent with at most one count, its bitlength. -/
theorem rconsistent_unique {n r r' : Nat} (h : rconsistent n r = true) (h' : rconsistent n r' = true) : r = r' := by
  obtain ⟨-, -, count⟩ := (rconsistent_iff_bitlength n r).mp h
  obtain ⟨-, -, count'⟩ := (rconsistent_iff_bitlength n r').mp h'
  exact count.trans count'.symm

/-- A word of a codeword's length is inconsistent with every other count than the codeword's. -/
theorem IsCodeword.inconsistent_of_ne {C : BitString} {r r' : Nat} (code : IsCodeword C r) (ne : r' ≠ r) :
    rconsistent C.length r' = false :=
  Bool.eq_false_iff.mpr fun consistent => ne (rconsistent_unique consistent code.consistent)

/-- Settles O46: the length of the word fixes the count that DECODE's first check accepts, and ENCODE returned that
count. -/
theorem mismatchedCountIsRejected : Obligations.MismatchedCountIsRejected := by
  intro D e X r ok length ne
  have code : IsCodeword e.codeword e.r := ⟨D, e, ok, rfl, rfl⟩
  apply decodeAbstract_inconsistent
  rw [length]
  exact code.inconsistent_of_ne ne

end Sys2Proof.Machine
end

section
/-! The two formats of an instruction word (spec/30_encoding.md R54, R59): decoding and encoding invert each other, and
the word that a step fetches is the one it runs. -/

namespace Sys2Proof.Machine

/-! ### Decoding what was encoded -/

theorem requestFits_iff (W len r bits : Nat) :
    requestFits W len r bits = true ↔ len < 2 ^ LW W ∧ r < 2 ^ LW W ∧ bits < 2 ^ W := by
  simp [requestFits, and_assoc]

/-- Operands that fit their ports are read back from a packed word as they are. -/
theorem decodeReq_packReq_ofNat {W len r bits : Nat} (fits : requestFits W len r bits = true) (op : BitVec 1) :
    decodeReq (packReq op (BitVec.ofNat (LW W) len) (BitVec.ofNat (LW W) r) (BitVec.ofNat W bits)) =
      if op = 0#1 then .encode len r bits else .decode len r bits := by
  obtain ⟨len_lt, r_lt, bits_lt⟩ := (requestFits_iff W len r bits).mp fits
  rw [decodeReq_packReq, BitVec.toNat_ofNat, BitVec.toNat_ofNat, BitVec.toNat_ofNat, Nat.mod_eq_of_lt len_lt,
    Nat.mod_eq_of_lt r_lt, Nat.mod_eq_of_lt bits_lt]

/-- Settles O1: a command's operands fit the fields of its request word, and a component operation has its own phase
code. -/
theorem decodeInvertsEncode : Obligations.DecodeInvertsEncode := by
  intro W i wf
  cases i with
  | encode len r bits => exact congrArg _ (decodeReq_packReq_ofNat wf 0#1)
  | decode len r bits => exact congrArg _ (decodeReq_packReq_ofNat wf 1#1)
  | calcr | interleave | parity | syndrome | correct => rfl

/-! ### Encoding what was decoded -/

theorem requestFits_toNat {W : Nat} (len r : BitVec (LW W)) (bits : BitVec W) :
    requestFits W len.toNat r.toNat bits.toNat = true :=
  (requestFits_iff W _ _ _).mpr ⟨len.isLt, r.isLt, bits.isLt⟩

/-- The command of a packed request word is well formed, and its encoding is that word. -/
theorem encodeWord_decodeReq_packReq {W : Nat} (op : BitVec 1) (len r : BitVec (LW W)) (bits : BitVec W) :
    (decodeReq (packReq op len r bits)).wf W = true ∧
      encodeWord W (decodeReq (packReq op len r bits)) = .req (packReq op len r bits) := by
  have fits := requestFits_toNat len r bits
  obtain rfl | rfl : op = 0#1 ∨ op = 1#1 := by revert op; decide
  · rw [decodeReq_packReq, if_pos rfl]
    exact ⟨fits, by simp [encodeWord]⟩
  · rw [decodeReq_packReq, if_neg (by decide)]
    exact ⟨fits, by simp [encodeWord]⟩

/-- The phase codes that select an operation, each with its operation (30_encoding.md R59). -/
theorem decodePhase_ok_cases {code : BitVec 4} {i : Instr} (h : decodePhase code = .ok i) :
    (code = 1#4 ∧ i = .calcr) ∨ (code = 2#4 ∧ i = .interleave) ∨ (code = 3#4 ∧ i = .parity) ∨
      (code = 5#4 ∧ i = .syndrome) ∨ (code = 7#4 ∧ i = .correct) := by
  unfold decodePhase at h
  split_ifs at h <;> cases h <;> simp [*]

/-- Settles O2: a request word is its fields, and each phase code that decodes is that of its operation. -/
theorem encodeInvertsDecode : Obligations.EncodeInvertsDecode := by
  intro W w i decodes
  cases w with
  | req w =>
    obtain rfl : decodeReq w = i := Except.ok.inj decodes
    rw [← packReq_fields w]
    exact encodeWord_decodeReq_packReq _ _ _ _
  | phase code =>
    obtain ⟨rfl, rfl⟩ | ⟨rfl, rfl⟩ | ⟨rfl, rfl⟩ | ⟨rfl, rfl⟩ | ⟨rfl, rfl⟩ := decodePhase_ok_cases decodes <;>
      exact ⟨rfl, rfl⟩

/-- Settles O4, by decoding each word. -/
theorem writtenOutWordsDecode : Obligations.WrittenOutWordsDecode := by
  unfold Obligations.WrittenOutWordsDecode
  decide

/-! ### Running what was fetched -/

/-- Without reset, a step performs the operation of the word it fetches. -/
theorem step_of_fetch {s : State} {w : InstrWord s.W} {i : Instr} (hr : (pins s).rst = false)
    (fetched : fetch s = some w) (decodes : decodeWord w = .ok i) : step s = exec i (afterSample s) := by
  simp [step, hr, fetched, decodes]

theorem fetch_request {s : State} (hp : s.regs.phase = .idle) (hv : (pins s).reqValid = true) :
    fetch s = some (.req (portWord (pins s))) := by
  simp [fetch, hp, hv]

theorem fetch_working {s : State} (hw : isWorking s.regs.phase = true) :
    fetch s = some (.phase (phaseCode s.regs.phase)) := by
  have busy : s.regs.phase ≠ .idle := fun idle => by rw [idle] at hw; cases hw
  simp [fetch, busy, hw]

/-- Settles O5: the word that is fetched is the one the obligation names. -/
theorem stepRunsDecodedInstruction : Obligations.StepRunsDecodedInstruction := fun _ _ hr =>
  ⟨fun hp hv decodes => step_of_fetch hr (fetch_request hp hv) decodes,
    fun hw decodes => step_of_fetch hr (fetch_working hw) decodes⟩

/-- A phase code that selects an operation is that of a working phase. -/
theorem phaseOfCode_of_decodePhase {code : BitVec 4} {i : Instr} (h : decodePhase code = .ok i) :
    isWorking (phaseOfCode code) = true ∧ phaseCode (phaseOfCode code) = code := by
  obtain ⟨rfl, -⟩ | ⟨rfl, -⟩ | ⟨rfl, -⟩ | ⟨rfl, -⟩ | ⟨rfl, -⟩ := decodePhase_ok_cases h <;> exact ⟨rfl, rfl⟩

/-- A placed request word stands on the request port. -/
theorem fetch_placeWord_req (s : State) (w : BitVec (reqWidth s.W)) :
    fetch (placeWord s (.req w)) = some (.req w : InstrWord s.W) :=
  (fetch_request rfl rfl).trans (congrArg (fun v => some (InstrWord.req v)) (packReq_fields w))

/-- A placed phase code stands in the phase register, if it selects an operation. -/
theorem fetch_placeWord_phase (s : State) {code : BitVec 4} {i : Instr} (h : decodePhase code = .ok i) :
    fetch (placeWord s (.phase code)) = some (.phase code : InstrWord s.W) := by
  obtain ⟨working, same⟩ := phaseOfCode_of_decodePhase h
  exact (fetch_working working).trans (congrArg (fun v => some (InstrWord.phase v)) same)

/-- Settles O6: a placed word is fetched by the next step, on pins without reset. -/
theorem placedWordIsRun : Obligations.PlacedWordIsRun := by
  intro s w i decodes
  cases w with
  | req w => exact step_of_fetch rfl (fetch_placeWord_req s w) decodes
  | phase code => exact step_of_fetch rfl (fetch_placeWord_phase s decodes) decodes

end Sys2Proof.Machine
end

section
/-! The bus form of a bit string (spec/20_memory.md R33). -/

namespace Sys2Proof.Machine

section
variable {W : Nat} {S : BitString}

/-- A bus carries every position of a word that fits, those beyond the word as 0. -/
theorem toBus_getLsbD_of_fits (fits : S.length ≤ W) {p : Nat} (one_le : 1 ≤ p) :
    (toBus W S).getLsbD (p - 1) = bit S p := by
  by_cases inside : p ≤ W
  · exact toBus_getLsbD W S p one_le inside
  · rw [bit_beyond S p (by omega), toBus_getLsbD_beyond W S p (by omega)]

theorem toBus_not_bitAbove (W : Nat) (S : BitString) : ¬ bitAbove S.length (toBus W S) := by
  rintro ⟨k, above, -, one⟩
  exact Bool.false_ne_true ((toBus_getLsbD_beyond W S (k + 1) (by omega)).symm.trans one)

/-- The value on the bus is the string read as a numeral. -/
theorem toBus_toNat (fits : S.length ≤ W) : (toBus W S).toNat = val S := by
  rw [toBus, BitVec.toNat_ofNat, Nat.mod_eq_of_lt]
  exact (val_lt S).trans_le (Nat.pow_le_pow_right Nat.two_pos fits)

/-- A word that fits is read back whole. -/
theorem ofBus_toBus (fits : S.length ≤ W) : ofBus S.length (toBus W S) = S := by
  refine word_ext (ofBus_length _ _) fun p one_le inside => ?_
  rw [ofBus_length] at inside
  rw [bit_ofBus _ _ p one_le inside, toBus_getLsbD_of_fits fits one_le]

/-- A bus without bits above the length is the bus form of what it carries. -/
theorem toBus_ofBus {n : Nat} {b : BitVec W} (clean : ¬ bitAbove n b) : toBus W (ofBus n b) = b := by
  refine BitVec.eq_of_getLsbD_eq fun k hk => ?_
  rw [show k = k + 1 - 1 from rfl, toBus_getLsbD W _ (k + 1) (by omega) hk]
  by_cases inside : k + 1 ≤ n
  · exact bit_ofBus n b (k + 1) (by omega) inside
  · rw [bit_beyond _ _ (by rw [ofBus_length]; omega)]
    exact (Bool.eq_false_iff.mpr fun one => clean ⟨k, by omega, hk, one⟩).symm

end

/-- Settles O55: both directions compare the string and the bus bit by bit. -/
theorem busFormRoundTrips : Obligations.BusFormRoundTrips :=
  ⟨fun W S fits => ⟨fun _ one_le => toBus_getLsbD_of_fits fits one_le, toBus_not_bitAbove W S, toBus_toNat fits,
    ofBus_toBus fits⟩, fun _ _ _ _ clean => toBus_ofBus clean⟩

end Sys2Proof.Machine
end

section
/-! The invariant of the sequencer (spec/45_sequencer.md section 2): each step leaves in the registers what the next one
reads, and the entries into the terminal phases leave the atomic answer to the latched request (R143). -/

namespace Sys2Proof.Machine

section
variable {W : Nat} {g : Regs W}

/-! ### What the invariant says in each phase -/

theorem regsInv_of_idle (hp : g.phase = .idle) : RegsInv g := by
  simp only [RegsInv, hp]

theorem regsInv_iff_counting (hp : g.phase = .countParityBits) : RegsInv g ↔ CountingInv g := by
  simp only [RegsInv, hp]

theorem regsInv_iff_counted (hp : g.phase = .interleave) : RegsInv g ↔ CountedInv g := by
  simp only [RegsInv, hp]

theorem regsInv_iff_placed (hp : g.phase = .computeParity) :
    RegsInv g ↔ CountedInv g ∧ ∃ S, interleave (operand g) g.wR.toNat = .ok S ∧ g.wSeq = toBus W S := by
  simp only [RegsInv, hp]

theorem regsInv_iff_received (hp : g.phase = .computeSyndrome) : RegsInv g ↔ ReceivedInv g := by
  simp only [RegsInv, hp]

theorem regsInv_iff_located (hp : g.phase = .singleBitError) : RegsInv g ↔ LocatedInv g := by
  simp only [RegsInv, hp]

theorem regsInv_iff_encoded (hp : g.phase = .encoded) : RegsInv g ↔ g.qOp = 0#1 ∧ RespondingInv g := by
  simp only [RegsInv, hp]

theorem regsInv_iff_rejected (hp : g.phase = .invalidInput) : RegsInv g ↔ RespondingInv g := by
  simp only [RegsInv, hp]

/-- The other terminal phases are those of DECODE. -/
theorem regsInv_iff_decoded (terminal : isTerminal g.phase = true) (encoded : g.phase ≠ .encoded)
    (rejected : g.phase ≠ .invalidInput) : RegsInv g ↔ g.qOp = 1#1 ∧ RespondingInv g := by
  cases hp : g.phase with
  | noError | corrected | uncorrectableError => simp only [RegsInv, hp]
  | encoded => exact absurd hp encoded
  | invalidInput => exact absurd hp rejected
  | _ => rw [hp] at terminal; cases terminal

theorem RegsInv.responding (inv : RegsInv g) (terminal : isTerminal g.phase = true) : RespondingInv g := by
  by_cases encoded : g.phase = .encoded
  · exact ((regsInv_iff_encoded encoded).mp inv).2
  by_cases rejected : g.phase = .invalidInput
  · exact (regsInv_iff_rejected rejected).mp inv
  · exact ((regsInv_iff_decoded terminal encoded rejected).mp inv).2

/-! ### The latched operand -/

@[simp] theorem operand_length (g : Regs W) : (operand g).length = g.qLen.toNat := ofBus_length _ _

theorem OperandValid.length_bounds (valid : OperandValid g) : 1 ≤ g.qLen.toNat ∧ g.qLen.toNat ≤ W := by
  obtain ⟨one_le, le, -⟩ := (operandFailure_none_iff g.qLen g.qBits).mp valid
  exact ⟨one_le, le⟩

theorem OperandValid.not_bitAbove (valid : OperandValid g) : ¬ bitAbove g.qLen.toNat g.qBits := by
  obtain ⟨-, -, clean⟩ := (operandFailure_none_iff g.qLen g.qBits).mp valid
  rw [← strayBits_iff_bitAbove, clean]
  exact Bool.false_ne_true

theorem OperandValid.toBus_operand (valid : OperandValid g) : toBus W (operand g) = g.qBits :=
  toBus_ofBus valid.not_bitAbove

/-- Once the parity bits are counted, INTERLEAVE succeeds on the latched data, with a word of `w_n` bits. -/
theorem CountedInv.interleave_ok (counted : CountedInv g) :
    ∃ S, interleave (operand g) g.wR.toNat = .ok S ∧ S.length = g.wN.toNat := by
  obtain ⟨⟨-, -, wM⟩, count, sum, -⟩ := counted
  obtain ⟨S, ok⟩ : ∃ S, interleave (operand g) g.wR.toNat = .ok S :=
    ⟨_, (interleave_eq_ok_iff _ _ _).mpr ⟨by rwa [operand_length, ← wM], rfl⟩⟩
  obtain ⟨length, -⟩ := interleave_bits _ _ S ok
  exact ⟨S, ok, by rw [length, sum, wM, operand_length]⟩

/-! ### The atomic answer, in the form of the response port -/

/-- The trace registers hold the port form of a trace (10_state.md R17). -/
def HoldsTrace (trace : List TraceEntry) (g : Regs W) : Prop :=
  g.tCov = portTrace W 0 (coverMask W) trace ∧ g.tObs = portTrace W 0 (observedMask W) trace ∧
    g.tVal = portTrace W false TraceEntry.value trace

/-- A terminal phase other than InvalidInput presents a word answer, if the registers hold its fields. -/
theorem response_eq_wordAnswer {n r errpos : Nat} {trace : List TraceEntry} (terminal : isTerminal g.phase = true)
    (status : g.stStatus ≠ .invalidInput) (cause : g.stCause = none) (wN : g.wN = BitVec.ofNat _ n)
    (wR : g.wR = BitVec.ofNat _ r) (pos : rspErrpos g = BitVec.ofNat _ errpos) (held : HoldsTrace trace g) :
    response g = some (wordAnswer W g.stStatus n r (rspBits g) errpos g.stCorr trace) := by
  obtain ⟨tCov, tObs, tVal⟩ := held
  simp only [response, rspValid, terminal, if_true, if_neg status, cause, wN, wR, pos, tCov, tObs, tVal]
  rfl

/-- The answer to ENCODE when its codeword fits (45_sequencer.md R139, row Encoded). -/
theorem answerEncode_eq {D S : BitString} {r : Nat} (ok : interleave D r = .ok S) (fits : S.length ≤ W) :
    answerEncode W D = wordAnswer W .ok S.length r (toBus W (parity S r).1) 0 false (parity S r).2 := by
  have encoded : encodeAbstract D = .ok ⟨(parity S r).1, r, (parity S r).2⟩ :=
    (encodeAbstract_ok_iff D ⟨_, r, _⟩).mpr ⟨S, ok, rfl⟩
  simp [answerEncode, encoded, Nat.not_lt.mpr fits]

section
variable {X : BitString} {r : Nat} (consistent : rconsistent X.length r = true)
include consistent

/-- The answer to DECODE without an error (R139, row NoError). -/
theorem answerDecode_noError (zero : (syndrome X r).1 = 0) :
    answerDecode W X r = wordAnswer W .ok X.length r (toBus W X) 0 false (syndrome X r).2 := by
  obtain ⟨noError, -, -⟩ := decodeAbstract_consistent X r consistent
  simp [answerDecode, noError zero]

/-- The answer to DECODE of a correctable word (R139, row Corrected). -/
theorem answerDecode_corrected (one_le : 1 ≤ (syndrome X r).1) (inside : (syndrome X r).1 ≤ X.length) :
    answerDecode W X r = wordAnswer W .ok X.length r (toBus W (flipAt X (syndrome X r).1)) (syndrome X r).1 true
      (syndrome X r).2 := by
  obtain ⟨-, correctable, -⟩ := decodeAbstract_consistent X r consistent
  simp [answerDecode, correctable one_le inside]

/-- The answer to DECODE of an uncorrectable word (R139, row UncorrectableError). -/
theorem answerDecode_uncorrectable (beyond : X.length < (syndrome X r).1) :
    answerDecode W X r = wordAnswer W .uncorrectableError X.length r (toBus W X) (syndrome X r).1 false
      (syndrome X r).2 := by
  obtain ⟨-, -, uncorrectable⟩ := decodeAbstract_consistent X r consistent
  simp [answerDecode, uncorrectable beyond]

end

/-! ### The entries into the terminal phases -/

/-- Failure entry with the cause of the atomic answer. -/
theorem fail_regsInv {c : Cause} (answered : answer g.qOp g.qLen g.qR g.qBits = .invalidInput (some c)) :
    RegsInv (fail c g) :=
  (regsInv_iff_rejected rfl).mpr ⟨congrArg some answered.symm, rfl, by simp, by simp⟩

theorem finish_respondingInv {p : Phase} {corr : Bool} (status : statusOfPhase p = some .ok)
    (flag : corr = true ↔ p = .corrected)
    (answered : response (finish p corr g) = some (answer g.qOp g.qLen g.qR g.qBits)) :
    RespondingInv (finish p corr g) := by
  have valid : p ≠ .invalidInput := by rintro rfl; cases status
  exact ⟨answered, status, flag, by simp [valid]⟩

theorem failUncorrectable_respondingInv
    (answered : response (failUncorrectable g) = some (answer g.qOp g.qLen g.qR g.qBits)) :
    RespondingInv (failUncorrectable g) :=
  ⟨answered, rfl, by simp, by simp⟩

/-! ### Accepting a request -/

theorem acceptEncode_regsInv (len r : BitVec (LW W)) (bits : BitVec W) (g : Regs W) :
    RegsInv (acceptEncode len r bits g) := by
  obtain ⟨c, failure, e⟩ | ⟨valid, e⟩ := acceptEncode_cases len r bits g
  · rw [e]
    exact fail_regsInv (answer_of_operandFailure 0#1 failure)
  · rw [e]
    exact (regsInv_iff_counting rfl).mpr ⟨rfl, valid, rfl⟩

/-- The check of DECODE that fails decides the answer (60_exceptions.md R175). -/
theorem answer_of_decodeFailure {len r : BitVec (LW W)} {bits : BitVec W} {c : Cause}
    (failure : decodeFailure len r bits = some c) : answer 1#1 len r bits = .invalidInput (some c) := by
  cases valid : operandFailure len bits with
  | some c' =>
    obtain rfl : c' = c := Option.some.inj ((decodeFailure_of_operandFailure valid).symm.trans failure)
    exact answer_of_operandFailure 1#1 valid
  | none =>
    have mismatch : rconsistent len.toNat r.toNat = false := by
      rw [Bool.eq_false_iff]
      intro consistent
      exact nomatch ((decodeFailure_none_iff len r bits).mpr ⟨valid, consistent⟩).symm.trans failure
    obtain rfl : .rMismatch = c := Option.some.inj ((decodeFailure_rMismatch valid mismatch).symm.trans failure)
    rw [answer_decode valid, answerDecode_rMismatch (by rwa [ofBus_length])]

theorem acceptDecode_regsInv (len r : BitVec (LW W)) (bits : BitVec W) (g : Regs W) :
    RegsInv (acceptDecode len r bits g) := by
  obtain ⟨c, failure, e⟩ | ⟨accepted, e⟩ := acceptDecode_cases len r bits g
  · rw [e]
    exact fail_regsInv (answer_of_decodeFailure failure)
  · rw [e]
    obtain ⟨valid, consistent⟩ := (decodeFailure_none_iff len r bits).mp accepted
    exact (regsInv_iff_received rfl).mpr ⟨rfl, valid, rfl, rfl, consistent⟩

/-! ### The steps of ENCODE -/

theorem countParityBits_regsInv (counting : CountingInv g) : RegsInv (countParityBits g) := by
  obtain ⟨op, valid, wM⟩ := counting
  have length : (operand g).length = g.wM.toNat := by rw [operand_length, wM]
  obtain ⟨c, empty, -⟩ | ⟨n, count, exceeds, e⟩ | ⟨n, count, fits, e⟩ := countParityBits_cases g
  · obtain ⟨one_le, -⟩ := valid.length_bounds
    obtain ⟨r, count, -⟩ := calcR_pos g.wM.toNat (by rw [wM]; omega)
    exact nomatch count.symm.trans empty
  · rw [e]
    refine fail_regsInv ?_
    rw [op, answer_encode valid]
    exact answerEncode_capacity (D := operand g) (by rwa [length]) (by rwa [length])
  · rw [e]
    have wR : (BitVec.ofNat (LW W) n).toNat = n := toNat_ofNat_LW (by omega)
    have wN : (BitVec.ofNat (LW W) (g.wM.toNat + n)).toNat = g.wM.toNat + n := toNat_ofNat_LW fits
    exact (regsInv_iff_counted rfl).mpr ⟨⟨op, valid, wM⟩, by rwa [wR], by rw [wR, wN], by rwa [wN]⟩

/-- On counted registers the step Interleave succeeds. -/
theorem CountedInv.interleaveStep_eq (counted : CountedInv g) : ∃ S, interleave (operand g) g.wR.toNat = .ok S ∧
    S.length = g.wN.toNat ∧ interleaveStep g = { g with wSeq := toBus W S, phase := .computeParity } := by
  obtain ⟨S, ok, length⟩ := counted.interleave_ok
  obtain ⟨c, failure, -⟩ | ⟨S', ok', e⟩ := interleaveStep_cases g
  · exact nomatch ok.symm.trans failure
  · obtain rfl : S = S' := Except.ok.inj (ok.symm.trans ok')
    exact ⟨S, ok, length, e⟩

theorem interleaveStep_regsInv (counted : CountedInv g) : RegsInv (interleaveStep g) := by
  obtain ⟨S, ok, -, e⟩ := counted.interleaveStep_eq
  rw [e]
  exact (regsInv_iff_placed rfl).mpr ⟨counted, S, ok, rfl⟩

theorem parityStep_regsInv (counted : CountedInv g) {S : BitString}
    (ok : interleave (operand g) g.wR.toNat = .ok S) (wSeq : g.wSeq = toBus W S) : RegsInv (parityStep g) := by
  obtain ⟨S', ok', length⟩ := counted.interleave_ok
  obtain rfl : S = S' := Except.ok.inj (ok.symm.trans ok')
  obtain ⟨⟨op, valid, -⟩, -, -, fits⟩ := counted
  have word : ofBus g.wN.toNat g.wSeq = S := by rw [wSeq, ← length, ofBus_toBus (by rwa [length])]
  have bits : rspBits (parityStep g) = toBus W (parity S g.wR.toNat).1 := by simp [rspBits, parityStep, op, word]
  have held : HoldsTrace (parity S g.wR.toNat).2 (parityStep g) := by simp [HoldsTrace, parityStep, word]
  have shown : response (parityStep g) = some (answer g.qOp g.qLen g.qR g.qBits) := by
    rw [op, answer_encode valid, show ofBus _ _ = operand g from rfl, answerEncode_eq ok (by rwa [length]), ← bits]
    exact response_eq_wordAnswer rfl nofun rfl (by simp [parityStep, length]) (by simp [parityStep])
      (by simp [rspErrpos, parityStep, op]) held
  exact (regsInv_iff_encoded rfl).mpr ⟨op, finish_respondingInv rfl (by simp) shown⟩

/-! ### The steps of DECODE -/

theorem ReceivedInv.answer_eq (received : ReceivedInv g) :
    answer g.qOp g.qLen g.qR g.qBits = answerDecode W (operand g) g.wR.toNat := by
  obtain ⟨op, valid, -, wR, -⟩ := received
  rw [op, answer_decode valid, wR]
  rfl

theorem ReceivedInv.consistent (received : ReceivedInv g) : rconsistent (operand g).length g.wR.toNat = true := by
  obtain ⟨-, -, wN, -, consistent⟩ := received
  rwa [operand_length, ← wN]

/-- What a DECODE presents in a terminal phase: the word in `w_out`, with the position and the trace of the syndrome. -/
theorem ReceivedInv.response_eq (received : ReceivedInv g) (terminal : isTerminal g.phase = true)
    (status : g.stStatus ≠ .invalidInput) (cause : g.stCause = none)
    (wPos : g.wPos = BitVec.ofNat _ (syndrome (operand g) g.wR.toNat).1)
    (held : HoldsTrace (syndrome (operand g) g.wR.toNat).2 g) :
    response g = some (wordAnswer W g.stStatus (operand g).length g.wR.toNat g.wOut (syndrome (operand g) g.wR.toNat).1
      g.stCorr (syndrome (operand g) g.wR.toNat).2) := by
  obtain ⟨op, -, wN, -, -⟩ := received
  have bits : rspBits g = g.wOut := by simp [rspBits, op]
  rw [← bits]
  exact response_eq_wordAnswer terminal status cause (by simp [wN]) (by simp) (by simp [rspErrpos, op, wPos]) held

/-- ComputeSyndrome takes the exit of the syndrome's class, with the row of R139 that the answer has. -/
theorem syndromeStep_regsInv (received : ReceivedInv g) : RegsInv (syndromeStep g) := by
  have ⟨op, valid, wN, _, _⟩ := received
  have length : (operand g).length = g.wN.toNat := by rw [operand_length, wN]
  have held : HoldsTrace (syndrome (operand g) g.wR.toNat).2 (withSyndrome g) := ⟨rfl, rfl, rfl⟩
  obtain ⟨zero, e⟩ | ⟨one_le, inside, e⟩ | ⟨beyond, e⟩ := syndromeStep_cases g (syndrome (operand g) g.wR.toNat).1 rfl
  · have after : ReceivedInv (finish .noError false (withSyndrome g)) := received
    have shown : response (finish .noError false (withSyndrome g)) = some (answer g.qOp g.qLen g.qR g.qBits) := by
      rw [received.answer_eq, answerDecode_noError received.consistent zero, valid.toBus_operand, ← zero]
      exact after.response_eq rfl nofun rfl rfl held
    rw [e]
    exact (regsInv_iff_decoded rfl (by simp) (by simp)).mpr ⟨op, finish_respondingInv rfl (by simp) shown⟩
  · have fits : g.wN.toNat ≤ W := wN ▸ valid.length_bounds.2
    have wPos : (withSyndrome g).wPos.toNat = (syndrome (operand g) g.wR.toNat).1 := toNat_ofNat_LW (inside.trans fits)
    rw [e]
    exact (regsInv_iff_located rfl).mpr ⟨received, one_le.trans_eq wPos.symm, wPos.trans_le inside, wPos, held⟩
  · have after : ReceivedInv (failUncorrectable (withSyndrome g)) := received
    have shown : response (failUncorrectable (withSyndrome g)) = some (answer g.qOp g.qLen g.qR g.qBits) := by
      rw [received.answer_eq, answerDecode_uncorrectable received.consistent (by rwa [length]), valid.toBus_operand]
      exact after.response_eq rfl nofun rfl rfl held
    rw [e]
    exact (regsInv_iff_decoded rfl (by simp) (by simp)).mpr ⟨op, failUncorrectable_respondingInv shown⟩

/-- On a located error the step SingleBitError flips the bit at `w_pos`. -/
theorem LocatedInv.correctStep_eq (located : LocatedInv g) : correctStep g = finish .corrected true
    { g with wOut := toBus W (flipAt (operand g) (syndrome (operand g) g.wR.toNat).1) } := by
  obtain ⟨⟨-, -, wN, -, -⟩, one_le, inside, wPos, -⟩ := located
  obtain ⟨outside, -⟩ | ⟨-, -, e⟩ := correctStep_cases g
  · rw [← wN] at outside
    omega
  · rw [e, wPos]
    rfl

theorem correctStep_regsInv (located : LocatedInv g) : RegsInv (correctStep g) := by
  have ⟨received, one_le, inside, wPos, held⟩ := located
  have ⟨op, _, wN, _, _⟩ := received
  have stored : g.wPos = BitVec.ofNat _ (syndrome (operand g) g.wR.toNat).1 := by simp [← wPos]
  rw [wPos] at one_le inside
  have after : ReceivedInv (correctStep g) := by
    rw [located.correctStep_eq]
    exact received
  have shown : response (correctStep g) = some (answer g.qOp g.qLen g.qR g.qBits) := by
    rw [received.answer_eq, answerDecode_corrected received.consistent one_le (by rwa [operand_length, ← wN])]
    rw [located.correctStep_eq] at after ⊢
    exact after.response_eq rfl nofun rfl stored held
  rw [located.correctStep_eq] at shown ⊢
  exact (regsInv_iff_decoded rfl (by simp) (by simp)).mpr ⟨op, finish_respondingInv rfl (by simp) shown⟩

/-! ### Every step -/

theorem handshake_regsInv (inv : RegsInv g) (ack : Bool) : RegsInv (handshake ack g) := by
  obtain ⟨-, -, e⟩ | ⟨-, e⟩ := handshake_cases g ack
  · rw [e]
    exact regsInv_of_idle rfl
  · rwa [e]

theorem stepRegs_reset {p : PortIn W} (hr : p.rst = true) (g : Regs W) : stepRegs p g = resetBlock g := by
  simp [stepRegs, hr]

theorem stepRegs_regsInv (inv : RegsInv g) (p : PortIn W) : RegsInv (stepRegs p g) := by
  cases hr : p.rst with
  | true =>
    rw [stepRegs_reset hr]
    exact regsInv_of_idle rfl
  | false =>
    cases hp : g.phase with
    | idle =>
      cases hv : p.reqValid with
      | false => rwa [stepRegs_idle_wait hr hp hv]
      | true =>
        obtain ⟨-, e⟩ | ⟨-, e⟩ := stepRegs_accept p g hp hr hv <;> rw [e]
        · exact acceptEncode_regsInv _ _ _ g
        · exact acceptDecode_regsInv _ _ _ g
    | countParityBits =>
      rw [stepRegs_countParityBits hr hp]
      exact countParityBits_regsInv ((regsInv_iff_counting hp).mp inv)
    | interleave =>
      rw [stepRegs_interleave hr hp]
      exact interleaveStep_regsInv ((regsInv_iff_counted hp).mp inv)
    | computeParity =>
      obtain ⟨counted, S, ok, wSeq⟩ := (regsInv_iff_placed hp).mp inv
      rw [stepRegs_computeParity hr hp]
      exact parityStep_regsInv counted ok wSeq
    | computeSyndrome =>
      rw [stepRegs_computeSyndrome hr hp]
      exact syndromeStep_regsInv ((regsInv_iff_received hp).mp inv)
    | singleBitError =>
      rw [stepRegs_singleBitError hr hp]
      exact correctStep_regsInv ((regsInv_iff_located hp).mp inv)
    | encoded | noError | corrected | uncorrectableError | invalidInput =>
      rw [stepRegs_terminal hr (by rw [hp]; rfl)]
      exact handshake_regsInv inv p.rspAck

end

/-- Settles O24: each step leaves what the invariant says of the phase it enters. -/
theorem invariantKeptByEveryStep : Obligations.InvariantKeptByEveryStep := by
  rintro s t ⟨width, inv⟩ hstep
  obtain rfl : ⟨s.W, s.inputs.tail, stepRegs (pins s) s.regs⟩ = t := by simpa [step_eq] using hstep
  exact ⟨width, stepRegs_regsInv inv (pins s)⟩

end Sys2Proof.Machine
end

section
/-! The step as a whole: it never stops, reset wins, blocks side by side are independent, and what follows from the
invariant for whole commands (spec/45_sequencer.md R130, R141, R143). -/

namespace Sys2Proof.Machine

/-! ### Every step -/

/-- Settles O7, with the registers `stepRegs`. -/
theorem stepNeverStops : Obligations.StepNeverStops := fun s => ⟨stepRegs (pins s) s.regs, step_eq s⟩

/-- Settles O8: reset is the first thing a step looks at. -/
theorem resetInputWinsOverEveryStep : Obligations.ResetInputWinsOverEveryStep := by
  intro W p ins g hr
  rw [step_cons, stepRegs_reset hr]
  exact ⟨rfl, rfl, rfl⟩

/-- Settles O23: the reset state is in Idle, of which the invariant says nothing, and has the width 16. -/
theorem resetStateIsReady : Obligations.ResetStateIsReady :=
  ⟨⟨by decide, regsInv_of_idle rfl⟩, rfl, rfl, rfl⟩

/-- Settles O30: a step of one block replaces its entry of the list. -/
theorem instancesDoNotInterfere : Obligations.InstancesDoNotInterfere := by
  intro ss ss' k stepped
  unfold stepInstance at stepped
  cases hk : ss[k]? with
  | none =>
    obtain rfl : ss = ss' := by simpa [hk] using stepped
    exact ⟨rfl, fun _ _ => rfl, nofun⟩
  | some s =>
    obtain rfl : ss.set k ⟨s.W, s.inputs.tail, stepRegs (pins s) s.regs⟩ = ss' := by
      simpa [hk, step_eq] using stepped
    obtain ⟨inside, -⟩ := List.getElem?_eq_some_iff.mp hk
    refine ⟨List.length_set, fun j ne => List.getElem?_set_ne ne.symm, ?_⟩
    rintro _ ⟨⟩
    exact ⟨_, step_eq s, List.getElem?_set_self inside⟩

/-! ### Terminal phases are held (R141) -/

/-- Settles O10, by induction on the number of steps. -/
theorem terminalPhaseIsHeld : Obligations.TerminalPhaseIsHeld := by
  intro k W ins g terminal hu
  induction k generalizing ins with
  | zero => rfl
  | succ k ih =>
    rw [core_run_succ, stepRegs_terminal_held (pins_undisturbing hu g) terminal,
      ih ins.tail fun b hb => hu b (List.mem_of_mem_tail hb), List.drop_tail]

/-! ### The edges of the state machine (R130) -/

section
variable {W : Nat} {p : PortIn W} {g : Regs W}

theorem acceptEncode_phase (len r : BitVec (LW W)) (bits : BitVec W) (g : Regs W) :
    (acceptEncode len r bits g).phase ∈ [.countParityBits, .invalidInput] := by
  rcases acceptEncode_cases len r bits g with ⟨c, -, e⟩ | ⟨-, e⟩ <;> simp [e]

theorem acceptDecode_phase (len r : BitVec (LW W)) (bits : BitVec W) (g : Regs W) :
    (acceptDecode len r bits g).phase ∈ [.computeSyndrome, .invalidInput] := by
  rcases acceptDecode_cases len r bits g with ⟨c, -, e⟩ | ⟨-, e⟩ <;> simp [e]

theorem stepRegs_idle_phase (hr : p.rst = false) (hp : g.phase = .idle) :
    (stepRegs p g).phase ∈ [.idle, .countParityBits, .computeSyndrome, .invalidInput] := by
  cases hv : p.reqValid with
  | false => simp [stepRegs_idle_wait hr hp hv, hp]
  | true =>
    obtain ⟨-, e⟩ | ⟨-, e⟩ := stepRegs_accept p g hp hr hv <;> rw [e]
    · exact (show [Phase.countParityBits, .invalidInput] ⊆ _ by decide) (acceptEncode_phase _ _ _ g)
    · exact (show [Phase.computeSyndrome, .invalidInput] ⊆ _ by decide) (acceptDecode_phase _ _ _ g)

theorem countParityBits_phase (g : Regs W) : (countParityBits g).phase ∈ [.interleave, .invalidInput] := by
  rcases countParityBits_cases g with ⟨c, -, e⟩ | ⟨n, -, -, e⟩ | ⟨n, -, -, e⟩ <;> simp [e]

theorem syndromeStep_phase (g : Regs W) :
    (syndromeStep g).phase ∈ [.noError, .singleBitError, .uncorrectableError] := by
  rcases syndromeStep_cases g _ rfl with ⟨-, e⟩ | ⟨-, -, e⟩ | ⟨-, e⟩ <;> simp [e]

theorem handshake_phase (ack : Bool) (g : Regs W) : (handshake ack g).phase ∈ [.idle, g.phase] := by
  rcases handshake_cases g ack with ⟨-, -, e⟩ | ⟨-, e⟩ <;> simp [e]

end

/-- Settles O11, phase by phase. The invariant shuts out the failures of the steps Interleave and SingleBitError. -/
theorem phaseMovesAlongEdges : Obligations.PhaseMovesAlongEdges := by
  rintro s t ⟨-, inv⟩ hstep hr
  obtain rfl : ⟨s.W, s.inputs.tail, stepRegs (pins s) s.regs⟩ = t := by simpa [step_eq] using hstep
  cases hp : s.regs.phase with
  | idle => exact .inl ⟨rfl, stepRegs_idle_phase hr hp⟩
  | countParityBits =>
    refine .inr (.inl ⟨rfl, ?_⟩)
    rw [stepRegs_countParityBits hr hp]
    exact countParityBits_phase s.regs
  | interleave =>
    obtain ⟨S, -, -, e⟩ := ((regsInv_iff_counted hp).mp inv).interleaveStep_eq
    refine .inr (.inr (.inl ⟨rfl, ?_⟩))
    rw [stepRegs_interleave hr hp, e]
  | computeParity =>
    refine .inr (.inr (.inr (.inl ⟨rfl, ?_⟩)))
    rw [stepRegs_computeParity hr hp]
    rfl
  | computeSyndrome =>
    refine .inr (.inr (.inr (.inr (.inl ⟨rfl, ?_⟩))))
    rw [stepRegs_computeSyndrome hr hp]
    exact syndromeStep_phase s.regs
  | singleBitError =>
    refine .inr (.inr (.inr (.inr (.inr (.inl ⟨rfl, ?_⟩)))))
    rw [stepRegs_singleBitError hr hp, ((regsInv_iff_located hp).mp inv).correctStep_eq]
    rfl
  | encoded | noError | corrected | uncorrectableError | invalidInput =>
    have terminal : isTerminal s.regs.phase = true := by rw [hp]; rfl
    refine .inr (.inr (.inr (.inr (.inr (.inr ⟨terminal, ?_⟩)))))
    rw [stepRegs_terminal hr terminal, ← hp]
    exact handshake_phase _ s.regs

/-! ### A command as one atomic step (R143) -/

section
variable {W : Nat} {p : PortIn W} {g : Regs W}

theorem stepsLeft_eq_zero {p : Phase} (hw : isWorking p = false) : stepsLeft p = 0 :=
  Nat.eq_zero_of_not_pos fun left => by
    rw [(stepsLeft_pos_iff p).mp left] at hw
    cases hw

theorem AnswersWithin.isTerminal_of_zero {p : Phase} (done : AnswersWithin 0 p) : isTerminal p = true := by
  obtain ⟨busy, le⟩ := done
  refine (isTerminal_iff p).mpr ⟨busy, Bool.eq_false_iff.mpr fun hw => ?_⟩
  have := (stepsLeft_pos_iff p).mpr hw
  omega

/-- A step uses up one of the steps that are left; a terminal phase, in which none are, is held. -/
theorem stepRegs_answersWithin {n : Nat} (hu : Undisturbing p) (left : AnswersWithin (n + 1) g.phase) :
    AnswersWithin n (stepRegs p g).phase := by
  obtain ⟨busy, le⟩ := left
  cases hw : isWorking g.phase with
  | true =>
    obtain ⟨busy', le'⟩ := stepRegs_working_answersWithin hu.1 hw
    exact ⟨busy', by omega⟩
  | false =>
    rw [stepRegs_terminal_held hu ((isTerminal_iff _).mpr ⟨busy, hw⟩)]
    exact ⟨busy, (stepsLeft_eq_zero hw).trans_le (Nat.zero_le n)⟩

/-- As many undisturbed steps as are left answer the latched request. -/
theorem core_run_answers (n : Nat) : ∀ {ins : List (PortIn W)} {g : Regs W}, RegsInv g → AnswersWithin n g.phase →
    (∀ b ∈ ins, Undisturbing b) → ∃ g' : Regs W,
      Host.Core.run core n ⟨W, ins, g⟩ = .next (⟨W, ins.drop n, g'⟩ : State) ∧
      response g' = some (answer g.qOp g.qLen g.qR g.qBits) := by
  induction n with
  | zero =>
    intro ins g inv done _
    obtain ⟨answered, -⟩ := inv.responding done.isTerminal_of_zero
    exact ⟨g, rfl, answered⟩
  | succ n ih =>
    intro ins g inv left hu
    have quiet := pins_undisturbing hu g
    obtain ⟨g', run, answered⟩ := ih (stepRegs_regsInv inv (pins ⟨W, ins, g⟩)) (stepRegs_answersWithin quiet left)
      fun b hb => hu b (List.mem_of_mem_tail hb)
    obtain ⟨qOp, qLen, qR, qBits⟩ := stepRegs_keeps_request quiet.1 fun accepts => left.1 accepts.1
    rw [qOp, qLen, qR, qBits] at answered
    exact ⟨g', by rw [core_run_succ, run, List.drop_tail], answered⟩

end

/-- Settles O25: acceptance latches the request and starts the invariant; three more steps are enough. -/
theorem stepsComputeAtomicAnswer : Obligations.StepsComputeAtomicAnswer := by
  intro W p busy g _ hp hq hu
  obtain ⟨leaves, le⟩ := stepRegs_request_answersWithin hp hq
  have left : AnswersWithin 3 (stepRegs p g).phase := ⟨leaves, le.trans (by split <;> decide)⟩
  obtain ⟨g', run, answered⟩ := core_run_answers 3 (stepRegs_regsInv (regsInv_of_idle hp) p) left hu
  obtain ⟨qOp, qLen, qR, qBits⟩ := stepRegs_latches_request hp hq
  rw [qOp, qLen, qR, qBits] at answered
  exact ⟨g', by rw [core_run_succ]; exact run, answered⟩

end Sys2Proof.Machine
end

section
/-! What the response port shows (spec/45_sequencer.md R139, spec/20_memory.md R33): the fields of a word answer follow
from the command, and which row of the table it has shows in its status and its correction flag. -/

namespace Sys2Proof.Machine

section
variable {W : Nat} {len r : BitVec (LW W)} {bits : BitVec W}

/-! ### Everything a command answers to a valid operand -/

theorem answerEncode_cases {D : BitString} (nonempty : 1 ≤ D.length) :
    answerEncode W D = .invalidInput (some .capacity) ∨
    ∃ e, encodeAbstract D = .ok e ∧ e.codeword.length ≤ W ∧
      answerEncode W D = wordAnswer W .ok e.codeword.length e.r (toBus W e.codeword) 0 false e.trace := by
  obtain ⟨n, count, -⟩ := calcR_pos D.length (by omega)
  obtain ⟨e, ok, length⟩ := encodeAbstract_of_calcR count
  obtain exceeds | fits := Nat.lt_or_ge W e.codeword.length
  · exact .inl (answerEncode_capacity count (length ▸ exceeds))
  · exact .inr ⟨e, ok, fits, by simp [answerEncode, ok, Nat.not_lt.mpr fits]⟩

theorem answerDecode_cases (W : Nat) (X : BitString) (r : Nat) :
    answerDecode W X r = .invalidInput (some .rMismatch) ∨
    rconsistent X.length r = true ∧
      (((syndrome X r).1 = 0 ∧
        answerDecode W X r = wordAnswer W .ok X.length r (toBus W X) 0 false (syndrome X r).2) ∨
      (1 ≤ (syndrome X r).1 ∧ (syndrome X r).1 ≤ X.length ∧
        answerDecode W X r = wordAnswer W .ok X.length r (toBus W (flipAt X (syndrome X r).1)) (syndrome X r).1 true
          (syndrome X r).2) ∨
      (X.length < (syndrome X r).1 ∧
        answerDecode W X r = wordAnswer W .uncorrectableError X.length r (toBus W X) (syndrome X r).1 false
          (syndrome X r).2)) := by
  cases consistent : rconsistent X.length r with
  | false => exact .inl (answerDecode_rMismatch consistent)
  | true =>
    refine .inr ⟨rfl, ?_⟩
    obtain zero | one_le := Nat.eq_zero_or_pos (syndrome X r).1
    · exact .inl ⟨zero, answerDecode_noError consistent zero⟩
    obtain beyond | inside := Nat.lt_or_ge X.length (syndrome X r).1
    · exact .inr (.inr ⟨beyond, answerDecode_uncorrectable consistent beyond⟩)
    · exact .inr (.inl ⟨one_le, inside, answerDecode_corrected consistent one_le inside⟩)

/-! ### The causes of a rejected request -/

theorem operandFailure_ne_badPosition : operandFailure len bits ≠ some .badPosition := by
  unfold operandFailure
  split_ifs <;> simp

/-- BAD_POSITION is never the cause of a rejected request: DECODE corrects inside the word only. -/
theorem answer_ne_badPosition (op : BitVec 1) (len r : BitVec (LW W)) (bits : BitVec W) :
    answer op len r bits ≠ .invalidInput (some .badPosition) := by
  cases valid : operandFailure len bits with
  | some c =>
    rw [answer_of_operandFailure op valid]
    rintro ⟨⟩
    exact operandFailure_ne_badPosition valid
  | none =>
    obtain rfl | rfl : op = 0#1 ∨ op = 1#1 := by revert op; decide
    · obtain ⟨one_le, -⟩ := (operandFailure_none_iff len bits).mp valid
      have nonempty : 1 ≤ (ofBus len.toNat bits).length := by rwa [ofBus_length]
      rw [answer_encode valid]
      obtain e | ⟨_, -, -, e⟩ := answerEncode_cases (W := W) nonempty <;> rw [e] <;> nofun
    · rw [answer_decode valid]
      obtain e | ⟨-, ⟨-, e⟩ | ⟨-, -, e⟩ | ⟨-, e⟩⟩ := answerDecode_cases W (ofBus len.toNat bits) r.toNat <;>
        rw [e] <;> nofun

/-! ### The fields of a word answer -/

/-- What holds of every word on the response port: no cause, a codeword's length and count, zeros above the word. -/
def WellShown (f : ResponseWord W) : Prop :=
  f.cause = none ∧ 3 ≤ f.len.toNat ∧ f.len.toNat ≤ W ∧ f.r.toNat = bitlength f.len.toNat ∧
    ¬ bitAbove f.len.toNat f.bits

theorem rconsistent_le {n r : Nat} (consistent : rconsistent n r = true) : r ≤ n := by
  obtain ⟨-, -, count⟩ := (rconsistent_iff_bitlength n r).mp consistent
  exact count.trans_le (bitlength_le_self n)

/-- A word answer with a consistent length and count, whose bits are those of a word of that length. -/
theorem wellShown_of_consistent {status : Status} {n r pos : Nat} {S : BitString} {corr : Bool}
    {trace : List TraceEntry} {f : ResponseWord W} (consistent : rconsistent n r = true) (fits : n ≤ W)
    (length : S.length = n) (shown : wordAnswer W status n r (toBus W S) pos corr trace = .word f) : WellShown f := by
  obtain ⟨three_le, -, count⟩ := (rconsistent_iff_bitlength n r).mp consistent
  obtain rfl := Response.word.inj shown
  have len : (BitVec.ofNat (LW W) n).toNat = n := toNat_ofNat_LW fits
  refine ⟨rfl, ?_⟩
  dsimp only
  rw [len, toNat_ofNat_LW ((rconsistent_le consistent).trans fits), count]
  exact ⟨three_le, fits, rfl, length ▸ toBus_not_bitAbove W S⟩

/-- The fields of a word that answers ENCODE. -/
theorem answer_encode_word {f : ResponseWord W} (shown : answer 0#1 len r bits = .word f) :
    WellShown f ∧ ∃ e, encodeAbstract (ofBus len.toNat bits) = .ok e ∧ f.status = .ok ∧
      f.len.toNat = e.codeword.length ∧ f.r.toNat = e.r ∧ f.bits = toBus W e.codeword ∧ f.errpos = 0 ∧
      f.corrected = false ∧ showsTrace e.trace f := by
  cases valid : operandFailure len bits with
  | some c =>
    rw [answer_of_operandFailure 0#1 valid] at shown
    cases shown
  | none =>
    obtain ⟨one_le, -⟩ := (operandFailure_none_iff len bits).mp valid
    have nonempty : 1 ≤ (ofBus len.toNat bits).length := by rwa [ofBus_length]
    rw [answer_encode valid] at shown
    obtain e | ⟨e, ok, fits, answered⟩ := answerEncode_cases (W := W) nonempty
    · exact nomatch e.symm.trans shown
    · rw [answered] at shown
      have consistent := IsCodeword.consistent (r := e.r) ⟨_, e, ok, rfl, rfl⟩
      have well := wellShown_of_consistent consistent fits rfl shown
      obtain rfl := Response.word.inj shown
      exact ⟨well, e, ok, rfl, toNat_ofNat_LW fits, toNat_ofNat_LW ((rconsistent_le consistent).trans fits), rfl, rfl,
        rfl, rfl, rfl, rfl⟩

/-- The fields of a DECODE's answer, whose length and count are the latched ones. -/
theorem wordAnswer_fields {status : Status} {b : BitVec W} {pos : Nat} {corr : Bool} {trace : List TraceEntry}
    {f : ResponseWord W} (small : pos < 2 ^ LW W)
    (shown : wordAnswer W status len.toNat r.toNat b pos corr trace = .word f) :
    (f.len = len ∧ f.r = r ∧ f.errpos.toNat = pos ∧ showsTrace trace f) ∧
      f.status = status ∧ f.corrected = corr ∧ f.bits = b := by
  obtain rfl := Response.word.inj shown
  have stored : (BitVec.ofNat (LW W) pos).toNat = pos := (BitVec.toNat_ofNat pos _).trans (Nat.mod_eq_of_lt small)
  exact ⟨⟨by simp, by simp, stored, rfl, rfl, rfl⟩, rfl, rfl, rfl⟩

/-- The syndrome of a word with a consistent count fits a position register. -/
theorem syndrome_lt_two_pow_LW {X : BitString} {r : Nat} (consistent : rconsistent X.length r = true)
    (fits : X.length ≤ W) : (syndrome X r).1 < 2 ^ LW W := by
  obtain ⟨-, -, count⟩ := (rconsistent_iff_bitlength X.length r).mp consistent
  exact (syndrome_lt X r).trans_le (Nat.pow_le_pow_right Nat.two_pos (count.trans_le (bitlength_mono fits)))

/-- The fields of a word that answers DECODE, the last ones by the row of R139. -/
theorem answer_decode_word {f : ResponseWord W} {X : BitString} (hX : X = ofBus len.toNat bits)
    (shown : answer 1#1 len r bits = .word f) :
    WellShown f ∧ (f.len = len ∧ f.r = r ∧ f.errpos.toNat = (syndrome X r.toNat).1 ∧
      showsTrace (syndrome X r.toNat).2 f) ∧
      (((syndrome X r.toNat).1 = 0 ∧ f.status = .ok ∧ f.corrected = false ∧ f.bits = bits) ∨
      (1 ≤ (syndrome X r.toNat).1 ∧ (syndrome X r.toNat).1 ≤ len.toNat ∧ f.status = .ok ∧ f.corrected = true ∧
        f.bits = bits ^^^ BitVec.twoPow W ((syndrome X r.toNat).1 - 1)) ∨
      (len.toNat < (syndrome X r.toNat).1 ∧ f.status = .uncorrectableError ∧ f.corrected = false ∧
        f.bits = bits)) := by
  cases valid : operandFailure len bits with
  | some c =>
    rw [answer_of_operandFailure 1#1 valid] at shown
    cases shown
  | none =>
    obtain ⟨-, fits, clean⟩ := (operandFailure_none_iff len bits).mp valid
    have length : X.length = len.toNat := by rw [hX, ofBus_length]
    have carried : toBus W X = bits := hX ▸ toBus_ofBus (by simp [← strayBits_iff_bitAbove, clean])
    rw [answer_decode valid, ← hX] at shown
    obtain e | ⟨consistent, rows⟩ := answerDecode_cases W X r.toNat
    · exact nomatch e.symm.trans shown
    have small := syndrome_lt_two_pow_LW consistent (length.trans_le fits)
    rw [length] at consistent rows
    obtain ⟨zero, e⟩ | ⟨one_le, inside, e⟩ | ⟨beyond, e⟩ := rows <;> rw [e] at shown
    · have well := wellShown_of_consistent consistent fits length shown
      rw [← zero] at shown
      obtain ⟨latched, status, corrected, word⟩ := wordAnswer_fields small shown
      exact ⟨well, latched, .inl ⟨zero, status, corrected, word.trans carried⟩⟩
    · have well := wellShown_of_consistent consistent fits ((flipAt_length _ _).trans length) shown
      obtain ⟨latched, status, corrected, word⟩ := wordAnswer_fields small shown
      have flipped := toBus_flip len.toNat _ bits one_le inside clean
      rw [← hX] at flipped
      exact ⟨well, latched, .inr (.inl ⟨one_le, inside, status, corrected, word.trans flipped⟩)⟩
    · have well := wellShown_of_consistent consistent fits length shown
      obtain ⟨latched, status, corrected, word⟩ := wordAnswer_fields small shown
      exact ⟨well, latched, .inr (.inr ⟨beyond, status, corrected, word.trans carried⟩)⟩

/-! ### The phase selects the row -/

variable {g : Regs W}

theorem statusOfPhase_eq_invalidInput_iff (p : Phase) : statusOfPhase p = some .invalidInput ↔ p = .invalidInput := by
  cases p <;> decide

/-- In InvalidInput the response is the cause of the answer. -/
theorem RespondingInv.response_invalidInput (responding : RespondingInv g) (hp : g.phase = .invalidInput) :
    ∃ c, c ≠ .badPosition ∧ response g = some (.invalidInput (some c)) := by
  obtain ⟨answered, status, -, cause⟩ := responding
  obtain ⟨c, hc⟩ := Option.ne_none_iff_exists'.mp (mt cause.mp (not_not.mpr hp))
  have shown : response g = some (.invalidInput (some c)) := by
    rw [(statusOfPhase_eq_invalidInput_iff _).mpr hp] at status
    have terminal : isTerminal g.phase = true := by rw [hp]; rfl
    simp [response, rspValid, terminal, ← Option.some.inj status, hc]
  refine ⟨c, ?_, shown⟩
  rintro rfl
  exact answer_ne_badPosition _ _ _ _ (Option.some.inj (answered.symm.trans shown))

/-- In every other terminal phase the answer is a word, whose status and flag are the phase's. -/
theorem RespondingInv.response_word (responding : RespondingInv g) (terminal : isTerminal g.phase = true)
    (hp : g.phase ≠ .invalidInput) : ∃ f : ResponseWord W, response g = some (.word f) ∧
      answer g.qOp g.qLen g.qR g.qBits = .word f ∧ statusOfPhase g.phase = some f.status ∧
      (f.corrected = true ↔ g.phase = .corrected) := by
  obtain ⟨answered, status, corr, -⟩ := responding
  have valid : g.stStatus ≠ .invalidInput := fun invalid =>
    hp ((statusOfPhase_eq_invalidInput_iff g.phase).mp (invalid ▸ status))
  obtain ⟨f, shown, fstatus, fcorr⟩ : ∃ f : ResponseWord W, response g = some (.word f) ∧ f.status = g.stStatus ∧
      f.corrected = g.stCorr := ⟨_, by simp [response, rspValid, terminal, valid]; rfl, rfl, rfl⟩
  exact ⟨f, shown, Option.some.inj (answered.symm.trans shown), by rw [status, fstatus], by rw [fcorr, corr]⟩

end

/-- Settles O28: the answer gives the fields, and the status and the flag of the phase select the row. -/
theorem responseFieldsFollowPhase : Obligations.ResponseFieldsFollowPhase := by
  rintro W ins g ⟨-, inv⟩ terminal
  have responding := inv.responding terminal
  refine ⟨fun hp => responding.response_invalidInput hp, fun invalid => ?_⟩
  obtain ⟨f, shown, answered, status, corr⟩ := responding.response_word terminal invalid
  refine ⟨f, shown, ?_⟩
  by_cases hp : g.phase = .encoded
  · obtain ⟨op, -⟩ := (regsInv_iff_encoded hp).mp inv
    rw [op] at answered
    obtain ⟨⟨cause, lo, hi, count, clean⟩, fields⟩ := answer_encode_word answered
    exact ⟨cause, lo, hi, count, clean, fun _ => fields, fun ne => absurd hp ne, by simp [hp], by simp [hp],
      by simp [hp]⟩
  · obtain ⟨op, -⟩ := (regsInv_iff_decoded terminal hp invalid).mp inv
    rw [op] at answered
    obtain ⟨⟨cause, lo, hi, count, clean⟩, ⟨len, r, pos, trace⟩, rows⟩ :=
      answer_decode_word (X := operand g) rfl answered
    refine ⟨cause, lo, hi, count, clean, fun eq => absurd eq hp, fun _ => ⟨len, r, pos, trace⟩, fun hp => ?_,
      fun hp => ?_, fun hp => ?_⟩
    all_goals rw [hp] at status corr; rw [← pos] at rows
    · obtain ⟨zero, ok, flag, word⟩ | ⟨-, -, -, flag, -⟩ | ⟨-, other, -⟩ := rows
      · exact ⟨ok, BitVec.eq_of_toNat_eq zero, flag, word⟩
      · cases corr.mp flag
      · rw [other] at status; cases status
    · obtain ⟨-, -, flag, -⟩ | ⟨one_le, inside, ok, flag, word⟩ | ⟨-, -, flag, -⟩ := rows
      · exact nomatch flag.symm.trans (corr.mpr rfl)
      · exact ⟨ok, one_le, len ▸ inside, flag, word⟩
      · exact nomatch flag.symm.trans (corr.mpr rfl)
    · obtain ⟨-, other, -⟩ | ⟨-, -, other, -⟩ | ⟨beyond, status, flag, word⟩ := rows
      · rw [other] at status; cases status
      · rw [other] at status; cases status
      · exact ⟨status, len ▸ beyond, flag, word⟩

end Sys2Proof.Machine
end

section
/-! The frame of the operations (spec/10_state.md R15 to R18, spec/60_exceptions.md R176): what each one leaves
unchanged, outside its phase, in its phase and on failure entry. -/

namespace Sys2Proof.Machine

/-! ### Outside its phase -/

/-- An operation without effect on the registers changes nothing. -/
theorem exec_of_effect_eq {i : Instr} {s : State} (same : effect i s.regs = s.regs) : exec i s = .next s := by
  rw [exec_eq, updRegs, same]

/-- Settles O20: the effect of every operation is bound to its phase. -/
theorem operationOutsideItsPhaseDoesNothing : Obligations.OperationOutsideItsPhaseDoesNothing := fun _ _ _ _ =>
  ⟨fun hp => ⟨exec_of_effect_eq (inPhase_other _ _ _ hp), exec_of_effect_eq (inPhase_other _ _ _ hp)⟩,
    fun hp => exec_of_effect_eq (inPhase_other _ _ _ hp), fun hp => exec_of_effect_eq (inPhase_other _ _ _ hp),
    fun hp => exec_of_effect_eq (inPhase_other _ _ _ hp), fun hp => exec_of_effect_eq (inPhase_other _ _ _ hp),
    fun hp => exec_of_effect_eq (inPhase_other _ _ _ hp)⟩

/-! ### Which registers an operation may write -/

/-- The registers that operation `i` does not write hold in `g'` what they hold in `g` ("written by", 10_state.md R15 to
R18). -/
def Frame {W : Nat} (i : Instr) (g g' : Regs W) : Prop :=
  ((∀ l r b, i ≠ .encode l r b ∧ i ≠ .decode l r b) →
    g'.qOp = g.qOp ∧ g'.qLen = g.qLen ∧ g'.qR = g.qR ∧ g'.qBits = g.qBits) ∧
  ((∀ l r b, i ≠ .encode l r b) → g'.wM = g.wM) ∧
  (i ≠ .calcr → (∀ l r b, i ≠ .decode l r b) → g'.wR = g.wR ∧ g'.wN = g.wN) ∧
  (i ≠ .interleave → i ≠ .parity → g'.wSeq = g.wSeq) ∧
  (i ≠ .syndrome → g'.wPos = g.wPos) ∧
  (i ≠ .syndrome → i ≠ .correct → g'.wOut = g.wOut) ∧
  (i ≠ .parity → i ≠ .syndrome → g'.tCov = g.tCov ∧ g'.tObs = g.tObs ∧ g'.tVal = g.tVal) ∧
  (isTerminal g'.phase = false → g'.stStatus = g.stStatus ∧ g'.stCause = g.stCause ∧ g'.stCorr = g.stCorr)

section
variable {W : Nat} (g : Regs W)

theorem Frame.refl (i : Instr) : Frame i g g := by simp [Frame]

/-- Failure entry writes the result fields only, and its phase is terminal. -/
theorem fail_frame (i : Instr) (c : Cause) : Frame i g (fail c g) := by
  simp [Frame, isTerminal, statusOfPhase]

theorem acceptEncode_frame (l r b : Nat) (len r' : BitVec (LW W)) (bits : BitVec W) :
    Frame (.encode l r b) g (acceptEncode len r' bits g) := by
  rcases acceptEncode_cases len r' bits g with ⟨c, -, e⟩ | ⟨-, e⟩ <;> simp [e, Frame, isTerminal, statusOfPhase]

theorem acceptDecode_frame (l r b : Nat) (len r' : BitVec (LW W)) (bits : BitVec W) :
    Frame (.decode l r b) g (acceptDecode len r' bits g) := by
  rcases acceptDecode_cases len r' bits g with ⟨c, -, e⟩ | ⟨-, e⟩ <;> simp [e, Frame, isTerminal, statusOfPhase]

theorem countParityBits_frame : Frame .calcr g (countParityBits g) := by
  rcases countParityBits_cases g with ⟨c, -, e⟩ | ⟨n, -, -, e⟩ | ⟨n, -, -, e⟩ <;> rw [e]
  · exact fail_frame g _ c
  · exact fail_frame g _ .capacity
  · simp [Frame]

theorem interleaveStep_frame : Frame .interleave g (interleaveStep g) := by
  rcases interleaveStep_cases g with ⟨c, -, e⟩ | ⟨S, -, e⟩ <;> rw [e]
  · exact fail_frame g _ c
  · simp [Frame]

theorem parityStep_frame : Frame .parity g (parityStep g) := by
  simp [Frame, parityStep, isTerminal, statusOfPhase]

theorem syndromeStep_frame : Frame .syndrome g (syndromeStep g) := by
  rcases syndromeStep_cases g _ rfl with ⟨-, e⟩ | ⟨-, -, e⟩ | ⟨-, e⟩ <;>
    simp [e, Frame, withSyndrome, isTerminal, statusOfPhase]

theorem correctStep_frame : Frame .correct g (correctStep g) := by
  rcases correctStep_cases g with ⟨-, e⟩ | ⟨-, -, e⟩ <;> rw [e]
  · exact fail_frame g _ .badPosition
  · simp [Frame, isTerminal, statusOfPhase]

/-- A step bound to a phase writes in another phase no register at all. -/
theorem inPhase_frame {i : Instr} (p : Phase) {f : Regs W → Regs W} (frame : Frame i g (f g)) :
    Frame i g (inPhase p f g) := by
  obtain ⟨-, e⟩ | ⟨-, e⟩ := inPhase_cases p f g <;> rw [e]
  · exact frame
  · exact Frame.refl g i

theorem effect_frame (i : Instr) : Frame i g (effect i g) := by
  cases i with
  | encode len r bits => exact inPhase_frame g _ (acceptEncode_frame g len r bits _ _ _)
  | decode len r bits => exact inPhase_frame g _ (acceptDecode_frame g len r bits _ _ _)
  | calcr => exact inPhase_frame g _ (countParityBits_frame g)
  | interleave => exact inPhase_frame g _ (interleaveStep_frame g)
  | parity => exact inPhase_frame g _ (parityStep_frame g)
  | syndrome => exact inPhase_frame g _ (syndromeStep_frame g)
  | correct => exact inPhase_frame g _ (correctStep_frame g)

end

/-- Settles O21, operation by operation. -/
theorem registersWrittenOnlyByTheirSteps : Obligations.RegistersWrittenOnlyByTheirSteps := by
  intro i W ins g t executed
  obtain rfl : ⟨W, ins, effect i g⟩ = t := by simpa [exec_eq] using executed
  exact ⟨effect i g, rfl, effect_frame g i⟩

/-! ### Failure entry -/

section
variable {W : Nat} {g : Regs W}

theorem acceptEncode_failed {len r : BitVec (LW W)} {bits : BitVec W}
    (hp : (acceptEncode len r bits g).phase = .invalidInput) :
    ∃ c, acceptEncode len r bits g = failed c (latch 0#1 len r bits g) := by
  obtain ⟨c, -, e⟩ | ⟨-, e⟩ := acceptEncode_cases len r bits g
  · exact ⟨c, e⟩
  · rw [e] at hp; cases hp

theorem acceptDecode_failed {len r : BitVec (LW W)} {bits : BitVec W}
    (hp : (acceptDecode len r bits g).phase = .invalidInput) :
    ∃ c, acceptDecode len r bits g = failed c (latch 1#1 len r bits g) := by
  obtain ⟨c, -, e⟩ | ⟨-, e⟩ := acceptDecode_cases len r bits g
  · exact ⟨c, e⟩
  · rw [e] at hp; cases hp

theorem countParityBits_failed (hp : (countParityBits g).phase = .invalidInput) :
    ∃ c, countParityBits g = failed c g := by
  obtain ⟨c, -, e⟩ | ⟨n, -, -, e⟩ | ⟨n, -, -, e⟩ := countParityBits_cases g
  · exact ⟨c, e⟩
  · exact ⟨.capacity, e⟩
  · rw [e] at hp; cases hp

theorem interleaveStep_failed (hp : (interleaveStep g).phase = .invalidInput) :
    ∃ c, interleaveStep g = failed c g := by
  obtain ⟨c, -, e⟩ | ⟨S, -, e⟩ := interleaveStep_cases g
  · exact ⟨c, e⟩
  · rw [e] at hp; cases hp

/-- PARITY has no failing exit. -/
theorem parityStep_failed (hp : (parityStep g).phase = .invalidInput) : ∃ c, parityStep g = failed c g := nomatch hp

/-- SYNDROME has no exit into InvalidInput. -/
theorem syndromeStep_failed (hp : (syndromeStep g).phase = .invalidInput) : ∃ c, syndromeStep g = failed c g := by
  have exits := syndromeStep_phase g
  rw [hp] at exits
  exact absurd exits (by decide)

theorem correctStep_failed (hp : (correctStep g).phase = .invalidInput) : ∃ c, correctStep g = failed c g := by
  obtain ⟨-, e⟩ | ⟨-, -, e⟩ := correctStep_cases g
  · exact ⟨.badPosition, e⟩
  · rw [e] at hp; cases hp

/-- A step bound to a phase that newly enters InvalidInput was enabled, and took a failing exit. -/
theorem inPhase_failed {p : Phase} {f : Regs W → Regs W} {q : Regs W} (before : g.phase ≠ .invalidInput)
    (exit : (f g).phase = .invalidInput → ∃ c, f g = failed c q) (after : (inPhase p f g).phase = .invalidInput) :
    ∃ c, inPhase p f g = failed c q := by
  obtain ⟨-, e⟩ | ⟨-, e⟩ := inPhase_cases p f g <;> rw [e] at after ⊢
  · exact exit after
  · exact absurd after before

end

/-- Settles O22, by the failing exits of each operation. -/
theorem failureEntryWritesNothingElse : Obligations.FailureEntryWritesNothingElse := by
  intro W ins g g' before after
  have effect_of_exec : ∀ i, exec i ⟨W, ins, g⟩ = .next ⟨W, ins, g'⟩ → effect i g = g' := fun i executed => by
    simpa [exec_eq] using executed
  refine ⟨fun i component executed => ?_, fun len r bits executed => ?_, fun len r bits executed => ?_⟩ <;>
    obtain rfl := effect_of_exec _ executed
  · cases i with
    | encode | decode => simp at component
    | calcr => exact inPhase_failed before countParityBits_failed after
    | interleave => exact inPhase_failed before interleaveStep_failed after
    | parity => exact inPhase_failed before parityStep_failed after
    | syndrome => exact inPhase_failed before syndromeStep_failed after
    | correct => exact inPhase_failed before correctStep_failed after
  · exact inPhase_failed before acceptEncode_failed after
  · exact inPhase_failed before acceptDecode_failed after

end Sys2Proof.Machine
end

section
/-! The steps Interleave, ComputeParity, ComputeSyndrome and SingleBitError bit by bit (spec/45_sequencer.md R135 to
R138). -/

namespace Sys2Proof.Machine

/-! ### Coverage sets on a bus -/

section
variable {W n : Nat} {bus : BitVec W}

theorem and_two_pow_eq_iff (p i : Nat) : p &&& 2 ^ i = 2 ^ i ↔ p.testBit i = true := by
  rw [Nat.and_two_pow]
  cases p.testBit i with
  | false => simpa using (Nat.two_pow_pos i).ne
  | true => simp

/-- The definition of a coverage set in terms of binary digits (42_parity_computer.md R101). -/
theorem cov_eq_filter_testBit (n i : Nat) : cov n i = (List.range' 1 n).filter fun j => j.testBit i := by
  refine List.filter_congr fun j _ => ?_
  rw [Bool.eq_iff_iff, beq_iff_eq, and_two_pow_eq_iff]

/-- The XOR over a coverage set of the word on a bus. -/
theorem xorAll_observed_ofBus (n i : Nat) (bus : BitVec W) :
    xorAll (observed (ofBus n bus) i) = coveredXor n i bus := by
  rw [coveredXor, ← cov_eq_filter_testBit, observed, ofBus_length]
  refine congrArg xorAll (List.map_congr_left fun j covered => ?_)
  obtain ⟨one_le, inside, -⟩ := (mem_cov n i j).mp covered
  exact bit_ofBus n bus j one_le inside

/-- A coverage set picked out of all the positions of the bus. -/
theorem filter_mem_cov (fits : n ≤ W) (i : Nat) :
    (List.range' 1 W).filter (fun j => decide (j ∈ cov n i)) = cov n i := by
  obtain ⟨d, rfl⟩ := Nat.exists_eq_add_of_le fits
  have inside : (List.range' 1 n).filter (fun j => decide (j ∈ cov n i)) = cov n i := by
    rw [cov_eq_filter_testBit]
    refine List.filter_congr fun j hj => ?_
    simp [hj]
  have beyond : (List.range' (1 + n) d).filter (fun j => decide (j ∈ cov n i)) = [] := by
    refine List.filter_eq_nil_iff.mpr fun j hj covered => ?_
    obtain ⟨-, le, -⟩ := (mem_cov n i j).mp (of_decide_eq_true covered)
    obtain ⟨le', -⟩ := List.mem_range'_1.mp hj
    omega
  rw [← List.range'_append_1, List.filter_append, inside, beyond, List.append_nil]

/-- The XOR over a coverage set, taken over all bits of the observed mask. -/
theorem xorAll_observedMask (fits : n ≤ W) (i : Nat) (bus : BitVec W) :
    xorAll ((List.range W).map fun k => (observedMask W (traceEntry (ofBus n bus) i)).getLsbD k) =
      xorAll (observed (ofBus n bus) i) := by
  have masked : (List.range W).map (fun k => (observedMask W (traceEntry (ofBus n bus) i)).getLsbD k) =
      (List.range' 1 W).map fun j => bit (ofBus n bus) j && decide (j ∈ cov n i) := by
    rw [List.range'_eq_map_range, List.map_map]
    refine List.map_congr_left fun k hk => ?_
    rw [observedMask_getLsbD W _ i k (List.mem_range.mp hk), ofBus_length, Function.comp_apply, Nat.add_comm]
  rw [masked, ← xorAll_map_filter _ (fun j => decide (j ∈ cov n i)) _ (fun j other => by simp [other]),
    filter_mem_cov fits, observed, ofBus_length]
  refine congrArg xorAll (List.map_congr_left fun j covered => ?_)
  simp [covered]

/-- The observed mask is the bus seen through the cover mask. -/
theorem observedMask_eq_and (n i : Nat) (bus : BitVec W) :
    observedMask W (traceEntry (ofBus n bus) i) = bus &&& coverMask W (traceEntry (ofBus n bus) i) := by
  refine BitVec.eq_of_getLsbD_eq fun k hk => ?_
  rw [BitVec.getLsbD_and, observedMask_getLsbD W _ i k hk, coverMask_getLsbD W _ i k hk, ofBus_length]
  by_cases covered : k + 1 ∈ cov n i
  · obtain ⟨one_le, inside, -⟩ := (mem_cov n i (k + 1)).mp covered
    rw [bit_ofBus n bus (k + 1) one_le inside, Nat.add_sub_cancel]
  · simp [covered]

/-- Trace registers that hold the trace of the word on a bus satisfy R61. -/
theorem HoldsTrace.tracesWord {r : Nat} {g : Regs W}
    (held : HoldsTrace ((List.range r).map (traceEntry (ofBus n bus))) g) (fits : n ≤ W) : tracesWord n r bus g := by
  obtain ⟨tCov, tObs, tVal⟩ := held
  intro i hi
  simp only [tCov, tObs, tVal, portTrace_range W _ _ _ r i hi]
  by_cases below : i < r
  · simp only [if_pos below]
    refine ⟨fun p one_le le => ?_, observedMask_eq_and n i bus, (xorAll_observedMask fits i bus).symm⟩
    rw [coverMask_getLsbD W _ i (p - 1) (by omega), Nat.sub_add_cancel one_le, decide_eq_true_iff, ofBus_length,
      mem_cov, and_two_pow_eq_iff]
    simp [below, one_le]
  · simp only [if_neg below]
    exact ⟨by simp [below], by simp, by simpa using (xorAll_map_false (List.range W)).symm⟩

end

/-! ### The operations in their phases -/

section
variable {W : Nat} {ins : List (PortIn W)} {g : Regs W}

theorem exec_interleave (hp : g.phase = .interleave) :
    exec .interleave ⟨W, ins, g⟩ = .next ⟨W, ins, interleaveStep g⟩ := by
  simp [exec_eq, effect, hp]

theorem exec_parity (hp : g.phase = .computeParity) :
    exec .parity ⟨W, ins, g⟩ = .next ⟨W, ins, parityStep g⟩ := by
  simp [exec_eq, effect, hp]

theorem exec_syndrome (hp : g.phase = .computeSyndrome) :
    exec .syndrome ⟨W, ins, g⟩ = .next ⟨W, ins, syndromeStep g⟩ := by
  simp [exec_eq, effect, hp]

theorem exec_correct (hp : g.phase = .singleBitError) :
    exec .correct ⟨W, ins, g⟩ = .next ⟨W, ins, correctStep g⟩ := by
  simp [exec_eq, effect, hp]

end

/-! ### Interleave -/

/-- Where the interleaved word of the latched data has its bits from (20_memory.md R35). -/
theorem bit_interleave_operand {W : Nat} {g : Regs W} {S : BitString}
    (ok : interleave (operand g) g.wR.toNat = .ok S) {p : Nat} (one_le : 1 ≤ p) (inside : p ≤ S.length) :
    bit S p = if ispow2 p then false else g.qBits.getLsbD (p - bitlength p - 1) := by
  obtain ⟨count, -⟩ := (interleave_eq_ok_iff _ _ S).mp ok
  obtain ⟨S', ok', -, parity, data, -⟩ := interleavePlacesDataBits (operand g) g.wR.toNat count
  obtain rfl : S = S' := Except.ok.inj (ok.symm.trans ok')
  cases hp : ispow2 p with
  | true => exact parity p one_le inside hp
  | false =>
    obtain ⟨number_pos, number_le, e⟩ := data p one_le inside hp
    rw [operand_length] at number_le
    exact e.trans (bit_ofBus _ g.qBits _ number_pos number_le)

/-- Settles O16: the step succeeds, and the bus carries the interleaved word. -/
theorem interleaveStepPlacesData : Obligations.InterleaveStepPlacesData := by
  intro W ins g hp counted
  obtain ⟨S, ok, length, e⟩ := counted.interleaveStep_eq
  have ⟨_, _, _, fits⟩ := counted
  refine ⟨toBus W S, by rw [exec_interleave hp, e], fun p one_le inside => ?_, fun p beyond => ?_, fun p hr => ?_⟩
  · rw [toBus_getLsbD_of_fits (length.trans_le fits) one_le]
    exact bit_interleave_operand ok one_le (length.symm ▸ inside)
  · exact toBus_getLsbD_beyond W S p (length.trans_lt beyond)
  · rw [step_cons, stepRegs_interleave hr hp, exec_interleave hp]

/-! ### ComputeParity -/

theorem two_pow_le_of_lt_bitlength {n i : Nat} (h : i < bitlength n) : 2 ^ i ≤ n := by
  have nonzero : n ≠ 0 := by rintro rfl; cases h
  exact (Nat.pow_le_pow_right Nat.two_pos (by omega)).trans (two_pow_le_of_bitlength n nonzero)

/-- Settles O17: the codeword and the trace PARITY computes from the word in `w_seq`. -/
theorem parityStepWritesCodeword : Obligations.ParityStepWritesCodeword := by
  intro W ins g hp fits count
  obtain ⟨S, hS⟩ : ∃ S, S = ofBus g.wN.toNat g.wSeq := ⟨_, rfl⟩
  have length : (parity S g.wR.toNat).1.length = g.wN.toNat := by rw [parity_length, hS, ofBus_length]
  have wSeq : (parityStep g).wSeq = toBus W (parity S g.wR.toNat).1 := by rw [hS]; rfl
  have held : HoldsTrace ((List.range g.wR.toNat).map (traceEntry S)) (parityStep g) := by
    rw [← parity_trace, hS]
    exact ⟨rfl, rfl, rfl⟩
  have carried : ∀ p, 1 ≤ p → (parityStep g).wSeq.getLsbD (p - 1) = bit (parity S g.wR.toNat).1 p := fun p one_le => by
    rw [wSeq, toBus_getLsbD_of_fits (length.trans_le fits) one_le]
  refine ⟨parityStep g, exec_parity hp, rfl, fun i hi => ?_, fun p one_le inside data => ?_, fun p beyond => ?_,
    (hS ▸ held).tracesWord fits, fun p hr => ?_⟩
  · have inside : 2 ^ i ≤ S.length := by
      rw [hS, ofBus_length]
      exact two_pow_le_of_lt_bitlength (count ▸ hi)
    rw [carried _ Nat.one_le_two_pow, bit_parity_at S _ i hi inside, hS, xorAll_observed_ofBus]
  · have inside' : p ≤ S.length := by rwa [hS, ofBus_length]
    rw [carried p one_le, (parity_sameData S _).data p one_le inside' data, hS, bit_ofBus _ _ p one_le inside]
  · rw [wSeq, toBus_getLsbD_beyond W _ p (length.trans_lt beyond)]
  · rw [step_cons, stepRegs_computeParity hr hp, exec_parity hp]

/-! ### ComputeSyndrome -/

section
variable {W : Nat} {g : Regs W}

theorem syndromeStep_of_zero (zero : (syndrome (operand g) g.wR.toNat).1 = 0) :
    syndromeStep g = finish .noError false (withSyndrome g) := by
  obtain ⟨-, e⟩ | ⟨one_le, -, -⟩ | ⟨beyond, -⟩ := syndromeStep_cases g (syndrome (operand g) g.wR.toNat).1 rfl
  · exact e
  · omega
  · omega

theorem syndromeStep_of_inside (one_le : 1 ≤ (syndrome (operand g) g.wR.toNat).1)
    (inside : (syndrome (operand g) g.wR.toNat).1 ≤ g.wN.toNat) :
    syndromeStep g = setPhase .singleBitError (withSyndrome g) := by
  obtain ⟨zero, -⟩ | ⟨-, -, e⟩ | ⟨beyond, -⟩ := syndromeStep_cases g (syndrome (operand g) g.wR.toNat).1 rfl
  · omega
  · exact e
  · omega

theorem syndromeStep_of_beyond (beyond : g.wN.toNat < (syndrome (operand g) g.wR.toNat).1) :
    syndromeStep g = failUncorrectable (withSyndrome g) := by
  obtain ⟨zero, -⟩ | ⟨-, inside, -⟩ | ⟨-, e⟩ := syndromeStep_cases g (syndrome (operand g) g.wR.toNat).1 rfl
  · omega
  · omega
  · exact e

theorem syndromeStep_wPos (g : Regs W) :
    (syndromeStep g).wPos = BitVec.ofNat _ (syndrome (operand g) g.wR.toNat).1 := by
  obtain ⟨-, e⟩ | ⟨-, -, e⟩ | ⟨-, e⟩ := syndromeStep_cases g _ rfl <;> rw [e] <;> rfl

theorem syndromeStep_holdsTrace (g : Regs W) :
    HoldsTrace ((List.range g.wR.toNat).map (traceEntry (operand g))) (syndromeStep g) := by
  obtain ⟨-, e⟩ | ⟨-, -, e⟩ | ⟨-, e⟩ := syndromeStep_cases g _ rfl <;> rw [e] <;> exact ⟨rfl, rfl, rfl⟩

end

/-- Settles O18: the position and the trace are written on every exit, and the position chooses the exit. -/
theorem syndromeStepTakesItsExit : Obligations.SyndromeStepTakesItsExit := by
  intro W ins g hp wN fits count
  have small : (syndrome (operand g) g.wR.toNat).1 < 2 ^ LW W :=
    (syndrome_lt _ _).trans_le (Nat.pow_le_pow_right Nat.two_pos (count.trans_le (bitlength_mono fits)))
  have wPos : (syndromeStep g).wPos.toNat = (syndrome (operand g) g.wR.toNat).1 := by
    rw [syndromeStep_wPos, BitVec.toNat_ofNat, Nat.mod_eq_of_lt small]
  have operand_eq : operand g = ofBus g.wN.toNat g.qBits := by rw [wN]; rfl
  have held := syndromeStep_holdsTrace g
  refine ⟨syndromeStep g, exec_syndrome hp, fun i => ?_, (operand_eq ▸ held).tracesWord fits, fun zero => ?_,
    fun one_le inside => ?_, fun beyond => ?_, fun p hr => ?_⟩
  · rw [wPos, syndrome_testBit, operand_eq, xorAll_observed_ofBus]
  · rw [syndromeStep_of_zero (wPos ▸ zero)]
    rfl
  · rw [syndromeStep_of_inside (wPos ▸ one_le) (wPos ▸ inside)]
    rfl
  · rw [syndromeStep_of_beyond (wPos ▸ beyond)]
    rfl
  · rw [step_cons, stepRegs_computeSyndrome hr hp, exec_syndrome hp]

/-! ### SingleBitError -/

/-- Settles O19: inside the word the step inverts one bit of the bus, outside it fails. -/
theorem correctStepInvertsOneBit : Obligations.CorrectStepInvertsOneBit := by
  intro W ins g hp
  rw [exec_correct hp]
  refine ⟨fun one_le inside valid => ?_, fun outside => ?_, fun p hr => ?_⟩
  · obtain ⟨outside, -⟩ | ⟨-, -, e⟩ := correctStep_cases g
    · omega
    · obtain ⟨-, -, clean⟩ := (operandFailure_none_iff g.qLen g.qBits).mp valid
      rw [e, toBus_flip g.qLen.toNat g.wPos.toNat g.qBits one_le inside clean]
      rfl
  · obtain ⟨-, e⟩ | ⟨one_le, inside, -⟩ := correctStep_cases g
    · rw [e]
      rfl
    · omega
  · rw [step_cons, stepRegs_singleBitError hr hp]

end Sys2Proof.Machine
end

section
/-! The code at the abstract level: the coverage sets (spec/42_parity_computer.md R101), the refusals of INTERLEAVE
(spec/41_interleaver.md R94), the commands on texts, and what the code corrects (spec/46_encode_command.md R153, R154,
spec/47_decode_command.md R165). -/

namespace Sys2Proof.Machine

/-! ### Coverage sets -/

theorem cov_pairwise_lt (n i : Nat) : (cov n i).Pairwise (· < ·) := List.Pairwise.filter _ List.pairwise_lt_range'

/-- A parity position is covered by its own index only (R101 (a)). -/
theorem two_pow_mem_cov_iff (n i k : Nat) : 2 ^ k ∈ cov n i ↔ 2 ^ k ≤ n ∧ k = i := by
  rw [mem_cov, Nat.testBit_two_pow, decide_eq_true_iff]
  exact and_iff_right Nat.one_le_two_pow

/-- An index beyond the binary digits of the length covers nothing (R101 (b)). -/
theorem cov_eq_nil {n i : Nat} (h : bitlength n ≤ i) : cov n i = [] := by
  refine List.eq_nil_iff_forall_not_mem.mpr fun j covered => ?_
  obtain ⟨-, inside, bit_set⟩ := (mem_cov n i j).mp covered
  have small : j < 2 ^ i :=
    (inside.trans_lt (lt_two_pow_bitlength n)).trans_le (Nat.pow_le_pow_right Nat.two_pos h)
  rw [Nat.testBit_lt_two_pow small] at bit_set
  cases bit_set

/-- Every position has a binary digit 1, and is covered by its index (R101 (c)). -/
theorem exists_mem_cov {n p : Nat} (one_le : 1 ≤ p) (inside : p ≤ n) : ∃ k, k < bitlength n ∧ p ∈ cov n k := by
  obtain ⟨k, bit_set⟩ := Nat.exists_testBit_of_ne_zero (Nat.ne_zero_of_lt one_le)
  have covered : p ∈ cov n k := (mem_cov n k p).mpr ⟨one_le, inside, bit_set⟩
  refine ⟨k, Nat.lt_of_not_le fun beyond => ?_, covered⟩
  rw [cov_eq_nil beyond] at covered
  cases covered

/-- Settles O38, from the binary digits of the positions. -/
theorem coverageSets : Obligations.CoverageSets := fun n i =>
  ⟨mem_cov n i, cov_pairwise_lt n i, fun inside => (two_pow_mem_cov_iff n i i).mpr ⟨inside, rfl⟩,
    fun k ne covered => ne ((two_pow_mem_cov_iff n i k).mp covered).2, cov_eq_nil, fun _ => exists_mem_cov⟩

/-! ### The refusals of INTERLEAVE -/

theorem forCount_refused_iff {α : Type} (m r : Nat) (x : α) :
    (∃ c, forCount m r x = .error c ∧ (c = .empty ∨ c = .rMismatch)) ↔ calcR m ≠ .ok r := by
  obtain ⟨count, e⟩ | ⟨other, c, cause, e⟩ := forCount_cases m r x
  · simp [e, count]
  · exact iff_of_true ⟨c, e, cause⟩ other

/-- Settles O37: both formulations make the same check of the count. -/
theorem interleaveRefusesOtherCounts : Obligations.InterleaveRefusesOtherCounts :=
  ⟨fun D r => forCount_refused_iff D.length r _, fun T r => forCount_refused_iff T.length r _⟩

/-! ### The commands on texts -/

theorem encodeText_of_parse_error {T : Text} {c : Cause} (h : parse T = .error c) :
    encodeText T = .error (.invalidInput c) := by
  rw [encodeText, h]

theorem decodeText_of_parse_error {T : Text} {c : Cause} (h : parse T = .error c) (r : Nat) :
    decodeText T r = .error (.invalidInput c) := by
  rw [decodeText, h]

/-- ENCODE of the text of a bit string is ENCODE of that string. -/
theorem encodeText_text {S : BitString} (nonempty : S ≠ []) :
    encodeText (text S) = (encodeAbstract S).map fun e => (text e.codeword, e.r, e.trace) := by
  rw [encodeText, (parse_eq_ok_iff _ S).mpr ⟨nonempty, rfl⟩]
  dsimp only
  cases encodeAbstract S <;> rfl

/-- DECODE of the text of a bit string is DECODE of that string. -/
theorem decodeText_text {S : BitString} (nonempty : S ≠ []) (r : Nat) :
    decodeText (text S) r =
      (decodeAbstract S r).map fun d => (d.errorPosition, d.syndromeTrace, d.corrected.map text) := by
  rw [decodeText, (parse_eq_ok_iff _ S).mpr ⟨nonempty, rfl⟩]
  dsimp only
  cases decodeAbstract S r <;> rfl

/-- Settles O54, by the three answers of `parse`. -/
theorem textCommandsAgree : Obligations.TextCommandsAgree := by
  refine ⟨fun r => ⟨rfl, rfl⟩, fun T r other => ?_, fun T nonempty binary => ?_, fun S r nonempty => ?_⟩
  · have malformed : parse T = .error .malformed := by simpa [parse_eq_malformed_iff, isBinary] using other
    exact ⟨encodeText_of_parse_error malformed, decodeText_of_parse_error malformed r⟩
  · have back : text (readBits T) = T :=
      text_readBits (List.all_eq_true.mpr fun c hc => (isBinary_iff c).mpr (binary c hc))
    exact ⟨readBits T, by rwa [ne_eq, ← text_eq_nil_iff, back], back⟩
  · rw [encodeText_text nonempty, decodeText_text nonempty r]
    exact ⟨fun e ok => by rw [ok]; rfl, fun f failure => by rw [failure]; rfl, fun d ok => by rw [ok]; rfl,
      fun f failure => by rw [failure]; rfl⟩

/-! ### Reading the data back (R153) -/

/-- What a successful ENCODE returns. -/
theorem encodeAbstract_ok {D : BitString} {e : EncodeOk} (ok : encodeAbstract D = .ok e) :
    calcR D.length = .ok e.r ∧ e.codeword.length = D.length + e.r ∧ extract e.codeword = D := by
  obtain ⟨S, interleaved, encoded⟩ := (encodeAbstract_ok_iff D e).mp ok
  obtain ⟨count, -⟩ := (interleave_eq_ok_iff D e.r S).mp interleaved
  obtain ⟨S', interleaved', length, -, -, -, data⟩ := interleavePlacesDataBits D e.r count
  obtain rfl : S = S' := Except.ok.inj (interleaved.symm.trans interleaved')
  have codeword : e.codeword = (parity S e.r).1 := congrArg EncodeOk.codeword encoded
  have same := parity_sameData S e.r
  rw [codeword, extract, same.length]
  refine ⟨count, length, Eq.trans (List.map_congr_left fun p hp => ?_) data⟩
  obtain ⟨⟨one_le, inside⟩, not_parity⟩ := (mem_dataPositions _ p).mp hp
  exact same.data p one_le inside not_parity

/-- Settles O52: nonempty data have a count, and PARITY writes no data position. -/
theorem extractInvertsEncode : Obligations.ExtractInvertsEncode := by
  intro D nonempty
  obtain ⟨r, count, -⟩ := calcR_pos D.length (mt List.length_eq_zero_iff.mp nonempty)
  obtain ⟨e, ok, -⟩ := encodeAbstract_of_calcR count
  exact ⟨e, ok, encodeAbstract_ok ok⟩

/-! ### Correction of single errors (R154, R165) -/

section
variable {C X : BitString} {r : Nat}

theorem IsCodeword.decode (code : IsCodeword C r) : decodeAbstract C r = .ok ⟨0, (syndrome C r).2, none⟩ := by
  obtain ⟨noError, -, -⟩ := decodeAbstract_consistent C r code.consistent
  exact noError code.syndrome_eq_zero

/-- DECODE of a codeword with one flip names its position and flips it back. -/
theorem IsCodeword.decode_flipAt (code : IsCodeword C r) {p : Nat} (one_le : 1 ≤ p) (inside : p ≤ C.length) :
    decodeAbstract (flipAt C p) r = .ok ⟨p, (syndrome (flipAt C p) r).2, some C⟩ := by
  have position : (syndrome (flipAt C p) r).1 = p :=
    (code.syndrome_of_flips [p] (by simp [one_le, inside])).trans (Nat.zero_xor p)
  obtain ⟨-, correctable, -⟩ := decodeAbstract_consistent (flipAt C p) r (by rw [flipAt_length]; exact code.consistent)
  rw [position, flipAt_flipAt, flipAt_length] at correctable
  exact correctable one_le inside

/-- DECODE succeeds on consistent operands only. -/
theorem rconsistent_of_decodeAbstract_ok {d : DecodeOk} (ok : decodeAbstract X r = .ok d) :
    rconsistent X.length r = true := by
  cases consistent : rconsistent X.length r with
  | true => rfl
  | false => exact nomatch (decodeAbstract_inconsistent X r consistent).symm.trans ok

end

/-- Settles O45: the ErrorPosition of a codeword is 0, and that of one flip is its position. -/
theorem singleErrorIsCorrected : Obligations.SingleErrorIsCorrected := by
  intro D e ok
  have code : IsCodeword e.codeword e.r := ⟨D, e, ok, rfl, rfl⟩
  exact ⟨⟨_, code.decode⟩, fun p one_le inside => ⟨_, code.decode_flipAt one_le inside⟩⟩

/-- Settles O47: the flip at the ErrorPosition XORs it into itself. -/
theorem correctedWordHasNoError : Obligations.CorrectedWordHasNoError := by
  intro X C r pos t ok
  have consistent := rconsistent_of_decodeAbstract_ok ok
  obtain ⟨-, -, count⟩ := (rconsistent_iff_bitlength X.length r).mp consistent
  obtain ⟨-, e⟩ | ⟨one_le, inside, e⟩ := decodeAbstract_ok_cases ok
  · cases e
  · obtain ⟨-, -, rfl⟩ : _ ∧ _ ∧ C = flipAt X (syndrome X r).1 := by simpa using e
    have zero : (syndrome (flipAt X (syndrome X r).1) r).1 = 0 := by
      refine (syndrome_flipAll X r [(syndrome X r).1] (by simp [one_le, inside]) ?_).trans (by simp)
      rw [count]
      exact lt_two_pow_bitlength X.length
    obtain ⟨noError, -, -⟩ := decodeAbstract_consistent (flipAt X (syndrome X r).1) r (by rwa [flipAt_length])
    exact ⟨_, noError zero⟩

/-! ### Minimum distance (R154) -/

/-- The positions, in increasing order, at which two words differ. -/
def differing (S T : BitString) : List Nat := (List.range' 1 S.length).filter fun p => bit S p != bit T p

section
variable {S T : BitString}

theorem mem_differing {p : Nat} : p ∈ differing S T ↔ (1 ≤ p ∧ p ≤ S.length) ∧ bit S p ≠ bit T p := by
  simp [differing, List.mem_range'_1, Nat.add_comm 1]

theorem differing_nodup (S T : BitString) : (differing S T).Nodup := List.Nodup.filter _ List.nodup_range'

theorem distance_eq_length_differing (length : S.length = T.length) : distance S T = (differing S T).length := by
  have pairs : S.zip T = (List.range' 1 S.length).map fun p => (bit S p, bit T p) := by
    rw [← List.zip_map', range'_map_bit, length, range'_map_bit]
  rw [distance, pairs, List.filter_map, List.length_map]
  rfl

/-- Flips at different positions of a word invert exactly these. -/
theorem bit_flipAll {E : List Nat} (distinct : E.Nodup) (inside : ∀ p ∈ E, 1 ≤ p ∧ p ≤ S.length) (q : Nat) :
    bit (flipAll S E) q = (bit S q ^^ decide (q ∈ E)) := by
  induction E generalizing S with
  | nil => simp [flipAll]
  | cons p E ih =>
    obtain ⟨notMem, distinct'⟩ := List.nodup_cons.mp distinct
    obtain ⟨⟨one_le, le⟩, inside'⟩ := List.forall_mem_cons.mp inside
    have rest := ih (S := flipAt S p) distinct' (by rwa [flipAt_length])
    rw [show flipAll S (p :: E) = flipAll (flipAt S p) E from rfl, rest, bit_flipAt one_le le]
    by_cases same : q = p
    · subst same
      simp [notMem]
    · simp [same]

/-- Flipping a word where it differs from another of its length makes it the other one. -/
theorem flipAll_differing (length : S.length = T.length) : flipAll S (differing S T) = T := by
  refine word_ext ((flipAll_length _ _).trans length) fun q one_le inside => ?_
  rw [flipAll_length] at inside
  rw [bit_flipAll (differing_nodup S T) fun p hp => (mem_differing.mp hp).1]
  simp only [mem_differing, one_le, inside, true_and]
  cases bit S q <;> cases bit T q <;> rfl

/-- Two codewords of one length and count that differ at all differ in at least three positions: the ErrorPosition of
the other one, 0, is the XOR of the positions. -/
theorem IsCodeword.three_le_distance {r : Nat} (codeS : IsCodeword S r) (codeT : IsCodeword T r)
    (length : S.length = T.length) (ne : S ≠ T) : 3 ≤ distance S T := by
  have inside : ∀ p ∈ differing S T, 1 ≤ p ∧ p ≤ S.length := fun p hp => (mem_differing.mp hp).1
  have other := flipAll_differing length
  have zero := codeS.syndrome_of_flips _ inside
  have distinct := differing_nodup S T
  rw [other, codeT.syndrome_eq_zero] at zero
  rw [distance_eq_length_differing length]
  match h : differing S T with
  | [] =>
    rw [h] at other
    exact absurd other ne
  | [p] =>
    rw [h] at zero inside
    obtain ⟨one_le, -⟩ := inside p List.mem_cons_self
    have : 0 = p := by simpa using zero
    omega
  | [p, q] =>
    rw [h] at zero distinct
    have same : p = q := Nat.xor_eq_zero_iff.mp (by simpa using zero.symm)
    exact absurd same (by simpa using distinct)
  | _ :: _ :: _ :: _ => simp

end

/-- Settles O51: the codewords of different data differ, because the data can be read back. -/
theorem codewordsDifferInThreePositions : Obligations.CodewordsDifferInThreePositions := by
  intro D D' e e' length ne ok ok'
  obtain ⟨count, len, data⟩ := encodeAbstract_ok ok
  obtain ⟨count', len', data'⟩ := encodeAbstract_ok ok'
  have sameCount : e.r = e'.r := by
    rw [length] at count
    exact Except.ok.inj (count.symm.trans count')
  have code : IsCodeword e.codeword e.r := ⟨D, e, ok, rfl, rfl⟩
  have code' : IsCodeword e'.codeword e.r := ⟨D', e', ok', rfl, sameCount.symm⟩
  refine code.three_le_distance code' (by rw [len, len', length, sameCount]) fun same => ne ?_
  rw [← data, same, data']

end Sys2Proof.Machine
end
